-- ==== Sys2Proof/Word.lean ====
section
/-! DEFINITION. The widths and index ranges of the machine (`00_scope.md` R5, R6): the constants ILEN = 32, VLEN = 128,
PCW = 64 and NREGS = 32 stand here, in the types. -/

namespace Sys2Proof

/-- Eight bits, the unit of the instruction memory (`10_state.md` R31). -/
abbrev Byte := BitVec 8

/-- Thirty-two bits: an instruction word (R47) and one element of a SIMD&FP register (R22). -/
abbrev Word := BitVec 32

/-- One hundred and twenty-eight bits: the content of a SIMD&FP register (R21). -/
abbrev Quad := BitVec 128

/-- A 64-bit byte address (R26, R31). -/
abbrev Addr := BitVec 64

/-- The number of a SIMD&FP register, 0 to 31 (R21, R50). -/
abbrev RegNo := Fin 32

/-- The index of a 32-bit element of a register, 0 (bottom) to 3 (top) (R22, R51). -/
abbrev Lane := Fin 4

end Sys2Proof
end

