-- ==== Sys2Proof/Syntax.lean ====
section
/-! DEFINITION. The instructions as data: one constructor per row of the opcode table (`30_encoding.md` R48, R52), and the
same instruction with operands not yet checked, as an assembler or a caller of `encode` writes it (R57, R59). -/

namespace Sys2Proof

/-- The instruction set in scope (`00_scope.md` R3). -/
inductive Instr where
  /-- `SM3TT1B <Vd>.4S, <Vn>.4S, <Vm>.S[<imm2>]` with `d`, `n`, `m` the register numbers and `i` the element index
  (R50, R51, R56, conflict C4). -/
  | sm3tt1b (d n m : RegNo) (i : Lane)
  deriving DecidableEq, Repr

/-- An instruction whose operands are plain numbers, in or out of range (the pseudocode's `integer d, n, m, i`, R7). -/
inductive RawInstr where
  | sm3tt1b (d n m i : Nat)
  deriving DecidableEq, Repr

end Sys2Proof
end

