-- ==== Sys2Proof/WellFormed.lean ====
section
/-! DEFINITION. The checks that make unchecked operands an instruction: a register number is 0 to 31 and an element index
0 to 3 (`30_encoding.md` R50, R51, R57, R59). A value of `Instr` has passed them by its type. -/

namespace Sys2Proof

/-- Every operand is in the range the encoding admits (R59: "`d`, `n`, `m` in 0..31 and `i` in 0..3"). -/
def RawInstr.wf : RawInstr → Bool
  | .sm3tt1b d n m i => decide (d < 32) && decide (n < 32) && decide (m < 32) && decide (i < 4)

/-- The checked instruction, or none where an operand is out of range. -/
def RawInstr.toInstr? : RawInstr → Option Instr
  | .sm3tt1b d n m i =>
    if h : d < 32 ∧ n < 32 ∧ m < 32 ∧ i < 4 then
      some (.sm3tt1b ⟨d, h.1⟩ ⟨n, h.2.1⟩ ⟨m, h.2.2.1⟩ ⟨i, h.2.2.2⟩)
    else none

/-- The operands of an instruction as plain numbers. -/
def Instr.raw : Instr → RawInstr
  | .sm3tt1b d n m i => .sm3tt1b d.val n.val m.val i.val

end Sys2Proof
end

