-- ==== Sys2Proof/Decode.lean ====
section
/-! DEFINITION. From bits to instructions and back (`30_encoding.md` R47 to R59; byte order `20_memory.md` R37). Every word is
decoded or rejected by name; the encoder is R59's formula. -/

namespace Sys2Proof

/-- What a 32-bit word decodes to: R52's two results. -/
inductive Decoded where
  | instr (i : Instr)
  /-- The word is no encoding of SM3TT1B; that does not make it an illegal instruction (R52, R54). -/
  | outOfScope
  deriving DecidableEq, Repr

/-- What a list of bytes decodes to: an instruction and the bytes after it, or a rejection by name. -/
inductive DecodedBytes where
  | instr (i : Instr) (rest : List Byte)
  | outOfScope
  /-- Fewer than four bytes are no instruction word (R47; DESIGN CHOICE, log 24). -/
  | truncated
  deriving DecidableEq, Repr

/-- R49's mask: a 1 at every fixed bit of R48. -/
def sm3tt1bMask : Word := 0xFFE0CC00#32

/-- R49's match value: the fixed bits' values, 0 in the fields. -/
def sm3tt1bMatch : Word := 0xCE408400#32

/-- A 5-bit register field, `UInt` of bits `lo+4 : lo` (R8, R50). -/
def regField (w : Word) (lo : Nat) : RegNo :=
  ⟨(w.extractLsb' lo 5).toNat, (w.extractLsb' lo 5).isLt⟩

/-- The 2-bit element index, `UInt` of bits `lo+1 : lo` (R8, R51). -/
def laneField (w : Word) (lo : Nat) : Lane :=
  ⟨(w.extractLsb' lo 2).toNat, (w.extractLsb' lo 2).isLt⟩

/-- The decode function of R52, total on words. -/
def decode (w : Word) : Decoded :=
  if w &&& sm3tt1bMask = sm3tt1bMatch then
    .instr (.sm3tt1b (regField w 0) (regField w 5) (regField w 16) (laneField w 12))
  else .outOfScope

/-- The encoding function of R59. -/
def encode : Instr → Word
  | .sm3tt1b d n m i =>
    sm3tt1bMatch ||| (BitVec.ofNat 32 m.val <<< 16) ||| (BitVec.ofNat 32 i.val <<< 12)
      ||| (BitVec.ofNat 32 n.val <<< 5) ||| BitVec.ofNat 32 d.val

/-- Four bytes, lowest address first, as a word: least significant byte first (R37). -/
def wordLE (b0 b1 b2 b3 : Byte) : Word := b3 ++ b2 ++ b1 ++ b0

/-- The four bytes of a word, lowest address first (R37). -/
def wordBytes (w : Word) : List Byte :=
  [w.extractLsb' 0 8, w.extractLsb' 8 8, w.extractLsb' 16 8, w.extractLsb' 24 8]

/-- Decoding any bytes: the first four make the word (R37, R47). -/
def decodeBytes : List Byte → DecodedBytes
  | b0 :: b1 :: b2 :: b3 :: rest =>
    match decode (wordLE b0 b1 b2 b3) with
    | .instr i => .instr i rest
    | .outOfScope => .outOfScope
  | _ => .truncated

/-- The bytes of an instruction as they lie in memory. -/
def encodeBytes (i : Instr) : List Byte := wordBytes (encode i)

/-- The instruction word whose low `nbits` bits are those of `w` and whose other bits are 0. -/
def tableWord (nbits w : Nat) : Word := BitVec.ofNat 32 (w % 2 ^ nbits)

/-- The instruction the decoder reads from the opcode table's bits. -/
def decodeTableWord (nbits w : Nat) : Option Instr :=
  match decodeBytes (wordBytes (tableWord nbits w)) with
  | .instr i _ => some i
  | .outOfScope => none
  | .truncated => none

end Sys2Proof
end

