-- ==== Sys2Proof/Machine/Registers.lean ====
section
/-! DEFINITION. What the machine's registers hold, as plain data (`10_state.md` R20 to R29). -/

namespace Sys2Proof.Machine

/-- The content of a SIMD&FP register: a 128-bit value, or R20's mark `unwritten`, which says that the launch state gives the
register no value (the mark is the spec's own state, D11; log 8). -/
inductive VReg where
  | value (q : Quad)
  | unwritten
  deriving DecidableEq, Repr, Inhabited

/-- The four condition flags (R27). -/
structure NZCV where
  n : Bool
  z : Bool
  c : Bool
  v : Bool
  deriving DecidableEq, Repr, Inhabited

/-- R20's `rest`: all other state of the PE. No rule reads it except through `FPCheck` and no rule writes it. Its parts are
those R25 and R27 name (PRESUMED, safe: log 3); `other` is a code of everything else, uninterpreted. -/
structure Rest where
  /-- X0 to X30 (R25). -/
  x : Vector (BitVec 64) 31
  /-- The stack pointer (R25). R25 gives it no width: 64 bits is PRESUMED from the A64 family (log 28). -/
  sp : BitVec 64
  /-- The condition flags (R27). -/
  nzcv : NZCV
  /-- System registers, data memory and whatever else the PE has (R20, R29, R31). -/
  other : Nat
  deriving DecidableEq, Repr, Inhabited

end Sys2Proof.Machine
end

