-- ==== Sys2Proof/Config.lean ====
section
/-! DEFINITION. What an implementation fixes and the spec leaves open (`00_scope.md` R5). NREGS, VLEN, ILEN and PCW are the widths
of Word.lean; FETCH_LE = true is `wordLE` of Decode.lean; HAVE_SM3, IMEM and DIT are plain data in `Params` (Machine/State.lean). Here
stands FPCheck, the outcome of `AArch64.CheckFPAdvSIMDEnabled()` (R15, R71, D6). -/

namespace Sys2Proof

open Sys2Proof.Machine

/-- The reason a trap carries: whatever the parameter returns, inspected by no rule (R71; log 23). -/
abbrev TrapReason := Nat

/-- What `AArch64.CheckFPAdvSIMDEnabled()` comes to: it returns, or it takes an exception (R15). -/
inductive FPOutcome where
  | ok
  | trap (reason : TrapReason)
  deriving DecidableEq, Repr, Inhabited

/-- The parameter FPCheck as plain data: one answer for every state, or the number of an uninterpreted function of the
state (R5: "may read the state"; DESIGN CHOICE, safe: log 2). -/
inductive FPCheck where
  | always (o : FPOutcome)
  | ofState (k : Nat)
  deriving DecidableEq, Repr, Inhabited

/-- The uninterpreted functions of R20's state (V, pc, rest) that an `FPCheck.ofState k` names. No body: what a claim says
of them holds whatever they answer (log 2). -/
opaque Config.fpCheck (k : Nat) (v : Vector VReg 32) (pc : Addr) (rest : Rest) : FPOutcome

end Sys2Proof
end

