-- ==== Sys2Proof/Machine/State.lean ====
section
/-! DEFINITION. The machine's state as plain data (`10_state.md` R20, with the parameters of `00_scope.md` R5 beside it), the reasons
a step can stop (R18, R69, R72), and the state after reset (R34; log 4 to 7). -/

namespace Sys2Proof.Machine

/-- The instruction memory: the (address, byte) pairs at which IMEM is defined, addresses strictly rising; an unlisted address
has no byte (R31, R36; log 9). -/
abbrev Memory := List Host.Cell

/-- The parameters of R5 that a run is launched with. No step changes them (log 1). -/
structure Params where
  /-- HAVE_SM3: whether FEAT_SM3 is implemented (R14, R30). -/
  haveSM3 : Bool
  /-- FPCheck: the outcome of `AArch64.CheckFPAdvSIMDEnabled()` (R15). -/
  fpCheck : FPCheck
  /-- IMEM: the program text (R45). -/
  imem : Memory
  /-- DIT: the value of PSTATE.DIT, read by no functional rule (R28). -/
  dit : Bool
  deriving DecidableEq, Repr

/-- R20's state (V, pc, rest) and the parameters it runs under. -/
structure State where
  /-- The SIMD&FP register file (R20, R21). -/
  v : Vector VReg 32
  /-- The byte address of the instruction being fetched (R26). -/
  pc : Addr
  /-- All other state of the PE (R20). -/
  rest : Rest
  /-- The parameters (R5). -/
  params : Params
  deriving DecidableEq, Repr

/-- What the hardware takes an exception for. A fault ends the run and changes nothing (R69, R75, R76; log 13). -/
inductive Fault where
  /-- Raised by SM3TT1B when HAVE_SM3 is false (R53, R70). Safe: the spec gives no handler, so nothing is claimed after it. -/
  | undefined
  /-- Raised by SM3TT1B when HAVE_SM3 is true and FPCheck traps (R71). Safe, as above. -/
  | fpAdvSIMDTrap (reason : TrapReason)
  deriving DecidableEq, Repr

/-- Where the spec gives the situation no meaning (R18, R72). Each is safe: a refusal supports no claim of a result. -/
inductive Refusal where
  /-- An instruction without a meaning; no instruction of this model answers it. -/
  | notModelled (mnemonic : String)
  /-- Raised by the fetch when `pc` is no multiple of 4 (R38, D5). Safe. -/
  | pcMisaligned
  /-- Raised by the fetch when `pc + 4 >= 2^64` (R62, D13). Safe. -/
  | pcWrap
  /-- Raised by the fetch when IMEM has no byte at one of the four addresses (R36, D12). Safe. -/
  | noInstructionMemory
  /-- Raised by the fetch when the word is no SM3TT1B (R52, D9). Safe. -/
  | outOfScope
  /-- Raised by SM3TT1B when a register it reads carries the mark `unwritten` (R61, D11). Safe. -/
  | unwrittenRegister
  deriving DecidableEq, Repr

/-- The state right after reset. The spec gives no reset value for anything (R34): every value here is a DESIGN CHOICE,
unsafe, named in log 4 (V), 5 (pc), 6 (rest) and 7 (the parameters). No program is placed (log 10). -/
def State.reset : State where
  v := Vector.replicate 32 (.value 0)
  pc := 0
  rest := { x := Vector.replicate 31 0, sp := 0, nzcv := ⟨false, false, false, false⟩, other := 0 }
  params := { haveSM3 := true, fpCheck := .always .ok, imem := [], dit := false }

end Sys2Proof.Machine
end

