-- ==== Sys2Proof/Machine/Ops.lean ====
section
/-! DEFINITION. The named operations over memory, registers, the program counter and the enable check, which every meaning and
the step share. -/

namespace Sys2Proof.Machine

/-! ### Instruction memory (R31, R36, R37) -/

/-- The byte IMEM has at an address, if any. -/
def Memory.read : Memory → Nat → Option Byte
  | [], _ => none
  | c :: m, a => if c.1 = a then some c.2 else Memory.read m a

/-- The byte `b` at key `a`, in the place its address has among the others. -/
def Memory.insert : Memory → Nat → Byte → Memory
  | [], a, b => [(a, b)]
  | c :: m, a, b =>
    if a < c.1 then (a, b) :: c :: m
    else if a = c.1 then (a, b) :: m
    else c :: Memory.insert m a b

/-- Placing a byte of program text, before a run (no instruction writes memory, R35; log 10). -/
def Memory.write (m : Memory) (a : Addr) (b : Byte) : Memory := m.insert a.toNat b

/-- Placing bytes at consecutive addresses. -/
def Memory.writeBytes : Memory → Addr → List Byte → Memory
  | m, _, [] => m
  | m, a, b :: bs => Memory.writeBytes (m.write a b) (a + 1) bs

/-- Addresses at or above `lo`, strictly rising, inside the 64-bit address space. -/
def Memory.wfFrom (lo : Nat) : Memory → Bool
  | [] => true
  | c :: m => decide (lo ≤ c.1) && decide (c.1 < 2 ^ 64) && Memory.wfFrom (c.1 + 1) m

/-- The canonical form of a memory: equal partial functions are equal lists (log 9). -/
def Memory.wf (m : Memory) : Bool := m.wfFrom 0

/-- `MemRead(a, 4)` of R36: the four bytes from `a` on, least significant first (R37), if IMEM is defined at all four. -/
def Memory.readWord (m : Memory) (a : Nat) : Option Word := do
  let b0 ← m.read a
  let b1 ← m.read (a + 1)
  let b2 ← m.read (a + 2)
  let b3 ← m.read (a + 3)
  return wordLE b0 b1 b2 b3

/-! ### SIMD&FP registers (R13, R17, R20) -/

/-- The value a register content has; none for the mark `unwritten`. -/
def VReg.value? : VReg → Option Quad
  | .value q => some q
  | .unwritten => none

/-- The value register `k` of a register file has, if it is not `unwritten`. -/
def readReg (v : Vector VReg 32) (k : RegNo) : Option Quad := v[k].value?

/-- `V[k]`: all 128 bits of register `k`, or none when it is marked `unwritten` (R17). No register is hardwired (R21). -/
def State.readV (s : State) (k : RegNo) : Option Quad := readReg s.v k

/-- `V[k] <- q`: the register holds `q` from then on, whatever it held or lacked (R17, R20). -/
def State.writeV (s : State) (k : RegNo) (q : Quad) : State := { s with v := s.v.set k (.value q) }

/-! ### Program counter (R26, R38, R62) -/

/-- `pc` is a multiple of 4 (R38). -/
def State.pcAligned (s : State) : Bool := s.pc.toNat % 4 == 0

/-- `pc + 4 >= 2^64` (R62, conflict C5). -/
def State.pcWraps (s : State) : Bool := decide (2 ^ 64 ≤ s.pc.toNat + 4)

/-- `pc <- pc + 4` (R62). A step reaches it only where the sum does not wrap (log 21). -/
def State.advance (s : State) : State := { s with pc := s.pc + 4 }

/-! ### Exceptions and the enable check (R71, R75) -/

/-- Taking an exception, for every instruction: the spec describes no entry (nothing saved, no target, no handler) and makes a
fault the terminal outcome of the step, the state unchanged (R75, R76; log 13). There is no return from exception (R77). -/
def raise (f : Fault) : Host.Outcome State Fault Refusal := .fault f

/-- `AArch64.CheckFPAdvSIMDEnabled()` in a state: the parameter FPCheck applied to it (R15, R71; log 2). -/
def State.fpOutcome (s : State) : FPOutcome :=
  match s.params.fpCheck with
  | .always o => o
  | .ofState k => Config.fpCheck k s.v s.pc s.rest

/-! ### Fetch (R36, R52, R74) -/

/-- Checks 1 to 4 of R74, in its order: alignment, wrap, instruction memory, decode. The instruction at `pc`, or the refusal
that stands for what is wrong. -/
def State.fetch (s : State) : Except Refusal Instr :=
  if s.pcAligned = false then .error .pcMisaligned
  else if s.pcWraps = true then .error .pcWrap
  else
    match s.params.imem.readWord s.pc.toNat with
    | none => .error .noInstructionMemory
    | some w =>
      match decode w with
      | .outOfScope => .error .outOfScope
      | .instr i => .ok i

/-- Placing an instruction word at `pc`, as a load from outside the machine does before a run (log 10). -/
def State.loadWord (s : State) (w : Word) : State :=
  { s with params := { s.params with imem := s.params.imem.writeBytes s.pc (wordBytes w) } }

end Sys2Proof.Machine
end

