-- ==== Sys2Proof/Machine/Operands.lean ====
section
/-! DEFINITION. Operand forms and the primitives on them: the element view of a register (`00_scope.md` R9, `10_state.md` R22), the
rotate (R10) and the joining of four elements. Every operand is a SIMD&FP register or one element of it (R50, R51, R56). -/

namespace Sys2Proof.Machine

/-- `Elem[q, e, 32]`: bits `32e+31 : 32e`, element 0 least significant (R9, R22). -/
def elem (q : Quad) (e : Lane) : Word := q.extractLsb' (32 * e.val) 32

/-- The register value with these four elements, the top one first. -/
def ofElems (e3 e2 e1 e0 : Word) : Quad := e3 ++ e2 ++ e1 ++ e0

/-- `ROL(x, shift)`: bit `j` of `x` becomes bit `(j + shift) mod 32` (R10, R66). -/
def rol32 (x : Word) (shift : Nat) : Word := x.rotateLeft shift

end Sys2Proof.Machine
end

