-- ==== Sys2Proof/Machine/AdvSimdSm3.lean ====
section
/-! DEFINITION. The family Advanced SIMD (FEAT_SM3): the meaning of SM3TT1B (`40_advsimd_sm3.md` R60 to R67), written from the
source's pseudocode line by line. -/

namespace Sys2Proof.Machine

/-- The 32-bit majority, bit by bit (R67). -/
def maj (a b c : Word) : Word := (a &&& c) ||| (a &&& b) ||| (c &&& b)

/-- `SS2 = Vn<127:96> EOR ROL(Vd<127:96>, 12)` (R60). -/
def sm3ss2 (vn vd : Quad) : Word := elem vn 3 ^^^ rol32 (elem vd 3) 12

/-- `TT1`: the majority of the upper three elements of Vd, plus its bottom element, SS2 and W'j, modulo 2^32 (R60, R65,
conflict C3). -/
def sm3tt1 (vd vn : Quad) (wjPrime : Word) : Word :=
  maj (elem vd 3) (elem vd 2) (elem vd 1) + elem vd 0 + sm3ss2 vn vd + wjPrime

/-- The 128-bit `result` of R60 from the old values of the three registers and the element index. -/
def sm3tt1bResult (vd vn vm : Quad) (i : Lane) : Quad :=
  ofElems (sm3tt1 vd vn (elem vm i)) (elem vd 3) (rol32 (elem vd 2) 9) (elem vd 1)

/-- SM3TT1B: the feature test, the enable check, the three register reads, then the one write and the advance of `pc`, in
R61's order (R60; checks 5 to 8 of R74). -/
def execSm3tt1b (d n m : RegNo) (i : Lane) (s : State) : Host.Outcome State Fault Refusal :=
  if s.params.haveSM3 = false then raise .undefined
  else
    match s.fpOutcome with
    | .trap r => raise (.fpAdvSIMDTrap r)
    | .ok =>
      match s.readV m, s.readV n, s.readV d with
      | some vm, some vn, some vd => .next (s.writeV d (sm3tt1bResult vd vn vm i)).advance
      | _, _, _ => .refused .unwrittenRegister

end Sys2Proof.Machine
end

