-- ==== Sys2Proof/Machine/Step.lean ====
section
/-! DEFINITION. One step of the PE: fetch the instruction at `pc`, then execute it (`60_exceptions.md` R74; `20_memory.md` R36, R42). -/

namespace Sys2Proof.Machine

/-- R74's eight checks in order: `State.fetch` makes the first four, the meaning the rest. -/
def step (s : State) : Host.Outcome State Fault Refusal :=
  match s.fetch with
  | .error r => .refused r
  | .ok i => exec i s

/-- `s` with the opcode table's word placed at `pc`, where `step` fetches (log 10). -/
def State.withFetchWord (s : State) (nbits w : Nat) : State := s.loadWord (tableWord nbits w)

end Sys2Proof.Machine
end

