-- ==== Sys2Proof/Machine/Assembly.lean ====
section
/-! DEFINITION. The assembler line of SM3TT1B (`30_encoding.md` R56 to R58): writing an instruction down and reading it back.
Spelling conventions: `92_eei_decisions.md` D23, log 20. It never changes what a word means. -/

namespace Sys2Proof.Machine

/-- A line of assembler text. -/
abbrev Text := List Char

/-- The digit of a number below 10. -/
def digitChar (k : Nat) : Char := Char.ofNat ('0'.toNat + k)

/-- A number below 100 in decimal, without leading zeros (R57). -/
def renderNumber (k : Nat) : Text :=
  if k < 10 then [digitChar k] else [digitChar (k / 10), digitChar (k % 10)]

/-- `V<k>.4S` (R23, R56). -/
def renderVector (k : RegNo) : Text := 'V' :: renderNumber k.val ++ ['.', '4', 'S']

/-- `V<k>.S[<i>]` (R56, R57). -/
def renderElement (k : RegNo) (i : Lane) : Text :=
  'V' :: renderNumber k.val ++ ['.', 'S', '['] ++ renderNumber i.val ++ [']']

/-- The mnemonic (R56). -/
def mnemonicText : Text := ['S', 'M', '3', 'T', 'T', '1', 'B']

/-- The assembler line, in capitals, one space after the mnemonic and after each comma. -/
def renderInstr : Instr → Text
  | .sm3tt1b d n m i =>
    mnemonicText ++ [' '] ++ renderVector d ++ [',', ' '] ++ renderVector n ++ [',', ' '] ++ renderElement m i

/-- The text after a fixed piece, which is read without regard to case (D23). -/
def readFixed : Text → Text → Option Text
  | [], cs => some cs
  | _ :: _, [] => none
  | p :: ps, c :: cs => if c.toUpper = p then readFixed ps cs else none

/-- The text after any spaces. -/
def skipSpaces : Text → Text
  | [] => []
  | c :: cs => if c = ' ' then skipSpaces cs else c :: cs

/-- The value of a decimal digit. -/
def digitValue? (c : Char) : Option Nat :=
  if '0'.toNat ≤ c.toNat ∧ c.toNat ≤ '9'.toNat then some (c.toNat - '0'.toNat) else none

/-- The digits that follow, onto what was read so far. -/
def readDigits (acc : Nat) : Text → Nat × Text
  | [] => (acc, [])
  | c :: cs =>
    match digitValue? c with
    | some k => readDigits (10 * acc + k) cs
    | none => (acc, c :: cs)

/-- A decimal number without leading zeros (R57). -/
def readNumber : Text → Option (Nat × Text)
  | [] => none
  | c :: cs =>
    match digitValue? c with
    | none => none
    | some 0 => some (0, cs)
    | some (k + 1) => some (readDigits (k + 1) cs)

/-- A comma with optional spaces about it (D23). -/
def readComma (cs : Text) : Option Text := (readFixed [','] (skipSpaces cs)).map skipSpaces

/-- `V<k>.4S`. -/
def readVector (cs : Text) : Option (Nat × Text) := do
  let cs ← readFixed ['V'] cs
  let (k, cs) ← readNumber cs
  let cs ← readFixed ['.', '4', 'S'] cs
  return (k, cs)

/-- `V<k>.S[<i>]`. -/
def readElement (cs : Text) : Option (Nat × Nat × Text) := do
  let cs ← readFixed ['V'] cs
  let (k, cs) ← readNumber cs
  let cs ← readFixed ['.', 'S', '['] cs
  let (i, cs) ← readNumber cs
  let cs ← readFixed [']'] cs
  return (k, i, cs)

/-- A whole line as unchecked operands: the mnemonic, a space, the three operands, and nothing after them (R56). -/
def readRaw (cs : Text) : Option RawInstr := do
  let cs ← readFixed mnemonicText cs
  let cs ← readFixed [' '] cs
  let (d, cs) ← readVector (skipSpaces cs)
  let cs ← readComma cs
  let (n, cs) ← readVector cs
  let cs ← readComma cs
  let (m, i, cs) ← readElement cs
  if cs = [] then return .sm3tt1b d n m i else none

/-- The instruction an assembler line stands for, if its numbers are in range (R57; the check is `RawInstr.toInstr?`). -/
def readInstr (cs : Text) : Option Instr := (readRaw cs).bind RawInstr.toInstr?

end Sys2Proof.Machine
end

