-- ==== Sys2Proof/Machine/Flags.lean ====
section
/-! DEFINITION. Flags and processor state bits. The spec gives no flag computation: SM3TT1B reads and writes no flag
(`10_state.md` R27; `40_advsimd_sm3.md` R60), and PSTATE.DIT has no effect on what it computes (R28). These are the views by which
claims name them. -/

namespace Sys2Proof.Machine

/-- The NZCV flags, a part of `rest` (R27). -/
def State.nzcv (s : State) : NZCV := s.rest.nzcv

/-- PSTATE.DIT, a parameter (R28). -/
def State.dit (s : State) : Bool := s.params.dit

end Sys2Proof.Machine
end

