-- ==== Sys2Proof/Safety.lean ====
section
/-! DEFINITION. The terms claims use: the invariant of a launched machine, the premises of a launch (`70_reset_and_hazards.md` R86), the
end of a run (R87), what the state is after a step that stops (`60_exceptions.md` R76), and the timing promise (`40_advsimd_sm3.md` R68). -/

namespace Sys2Proof.Safety

open Sys2Proof.Machine

/-- The text is in canonical form, `pc` is a multiple of 4 (R38) and every SIMD&FP register holds a value (R86 premise 4,
for all registers). -/
def MachineInv (s : State) : Prop :=
  s.params.imem.wf = true ∧ s.pcAligned = true ∧ ∀ k, (s.readV k).isSome = true

/-- FPCheck depends on `rest` alone: the special case in which R86 lets premise 2 be asked of the launch state only. -/
def FPCheckReadsRestOnly (c : FPCheck) : Prop :=
  ∀ s t : State, s.params.fpCheck = c → t.params.fpCheck = c → s.rest = t.rest → s.fpOutcome = t.fpOutcome

/-- SM3TT1B is implemented and its access enabled (R86, premises 1 and 2, in one state). -/
def Enabled (s : State) : Prop := s.params.haveSM3 = true ∧ s.fpOutcome = .ok

/-- R86, premises 1 and 2, for a run of `k` steps: SM3TT1B is implemented, and FPCheck answers ok in the launch state and in every
state the run passes through, whatever FPCheck reads. Nothing more is asked of the state at the end address, from which no step is
taken (R87; log 25). -/
def EnabledThroughout (s : State) (k : Nat) : Prop :=
  Enabled s ∧ ∀ j t, j < k → Host.Core.run Sys2Proof.core j s = .next t → t.fpOutcome = .ok

/-- The fetch at `pc` gives the word `w`: checks 1 to 3 of R74 pass (R36, R38, R62). -/
def FetchesWord (s : State) (w : Word) : Prop :=
  s.pc.toNat % 4 = 0 ∧ s.pc.toNat + 4 < 2 ^ 64 ∧ s.params.imem.readWord s.pc.toNat = some w

/-- The registers an instruction reads (R24). -/
def readsOf : Instr → List RegNo
  | .sm3tt1b d n m _ => [m, n, d]

/-- The text from address `a` on is the words of these instructions, one after the other (R36, R47). -/
def TextAt (m : Memory) : Nat → List Instr → Prop
  | _, [] => True
  | a, i :: is => m.readWord a = some (encode i) ∧ TextAt m (a + 4) is

/-- The launch premises of R86 for a text of SM3TT1B words that starts at `pc` and does not reach the top of the address
space (R62). Premise 5 asks nothing of a state: no state records a stop (R75, R76). -/
def LaunchReady (s : State) (text : List Instr) : Prop :=
  EnabledThroughout s text.length ∧ s.pcAligned = true
    ∧ s.pc.toNat + 4 * text.length < 2 ^ 64 ∧ TextAt s.params.imem s.pc.toNat text
    ∧ ∀ i ∈ text, ∀ k ∈ readsOf i, (s.readV k).isSome = true

/-- The register file after an instruction that completes (R60). -/
def regsAfter (v : Vector VReg 32) : Instr → Vector VReg 32
  | .sm3tt1b d n m i =>
    match readReg v m, readReg v n, readReg v d with
    | some vm, some vn, some vd => v.set d (.value (sm3tt1bResult vd vn vm i))
    | _, _, _ => v

/-- The state after a step: the next state, or the state before it where the step stops (R76). -/
def stateAfter (s : State) : State :=
  match step s with
  | .next t => t
  | .fault _ => s
  | .refused _ => s

/-- The end address END that a claim names: a multiple of 4 (R87). -/
structure EndAddr where
  addr : Addr
  aligned : addr.toNat % 4 = 0
  deriving DecidableEq, Repr

/-- None of the states that the first `j` steps pass through, before the `j`-th is done, is at the end address. -/
def NotYetAt (stop : EndAddr) (j : Nat) (s : State) : Prop :=
  ∀ i < j, ∀ x, Host.Core.run Sys2Proof.core i s = .next x → x.pc ≠ stop.addr

/-- How a run ends, with the state it ends in (R76, R87). -/
inductive RunEnd where
  /-- It reached the end address by next-state steps alone. -/
  | complete (s : State)
  | faulted (f : Fault) (s : State)
  | refused (r : Refusal) (s : State)
  /-- The given number of steps was not enough. -/
  | unfinished (s : State)
  deriving DecidableEq, Repr

/-- A run of at most `k` steps to the end address `stop`; no step is taken from there (R87; log 25). -/
def runTo (stop : EndAddr) : Nat → State → RunEnd
  | 0, s => if s.pc = stop.addr then .complete s else .unfinished s
  | k + 1, s =>
    if s.pc = stop.addr then .complete s
    else
      match step s with
      | .next t => runTo stop k t
      | .fault f => .faulted f s
      | .refused r => .refused r s

/-- Two states that differ at most in the values of SIMD&FP registers and of the NZCV flags: the model's reading of the data R68
speaks of (DESIGN CHOICE, log 22). -/
def DifferInDataOnly (s t : State) : Prop :=
  s.pc = t.pc ∧ s.params = t.params ∧ (∀ k, (s.readV k).isSome = (t.readV k).isSome)
    ∧ { s.rest with nzcv := t.rest.nzcv } = t.rest

/-- A quantity of one instruction in one state that, when PSTATE.DIT is 1, does not depend on register data or NZCV. -/
def DataIndependent {α : Type} (f : Instr → State → α) : Prop :=
  ∀ i s t, s.params.dit = true → DifferInDataOnly s t → f i s = f i t

/-- R68's first promise, of the hardware's execution times. The machine has no time: it is stated, never proved (R90;
log 22). -/
def TimingPromise (cycles : Instr → State → Nat) : Prop := DataIndependent cycles

/-- R68's second promise, of the hardware's response to asynchronous exceptions, whatever a response is (R73; log 14, 22). -/
def AsyncResponsePromise {Response : Type} (response : Instr → State → Response) : Prop := DataIndependent response

/-- The time of a text of instructions run one after the other: the SUM of the times of its instructions, each a function of the
instruction and the state before it alone, with no overlap and no history. The spec gives a text no time and is silent on all of
this (R90): DESIGN CHOICE, log 27. -/
def textCycles (cycles : Instr → State → Nat) : List Instr → State → Nat
  | [], _ => 0
  | i :: is, s =>
    cycles i s +
      match exec i s with
      | .next t => textCycles cycles is t
      | .fault _ => 0
      | .refused _ => 0

end Sys2Proof.Safety
end

