-- ==== Sys2Proof/Certificates/Slice0/Obligations.lean ====
section
/-! DEFINITION. The statements for the provers, each from the numbered rules of spec/. A statement over "every state" quantifies
over every launch state and every value of the parameters HAVE_SM3, FPCheck, IMEM and DIT with it (log 1, 2). -/

open Sys2Proof Sys2Proof.Machine Sys2Proof.Safety

/-! ### Reset and the invariant -/

/-- What reset leaves. The spec states no reset value (R34): every value here is the model's DESIGN CHOICE (log 4 for V, 5 for pc,
6 for rest, 7 for the parameters), and with no text placed the first step is refused (log 10). -/
def Obligations.ResetLeavesTheChosenValues : Prop :=
  (∀ k, State.reset.readV k = some 0) ∧ State.reset.pc = 0
    ∧ (∀ k : Fin 31, State.reset.rest.x[k] = 0) ∧ State.reset.rest.sp = 0 ∧ State.reset.nzcv = ⟨false, false, false, false⟩
    ∧ State.reset.rest.other = 0
    ∧ Enabled State.reset ∧ (∀ a, State.reset.params.imem.read a = none) ∧ State.reset.dit = false
    ∧ step State.reset = .refused .noInstructionMemory

/-- The invariant holds at reset; it rests on the reset values the model chose (log 4, 5, 7). -/
def Obligations.ResetMeetsInvariant : Prop := MachineInv State.reset

/-- Every step keeps the invariant, from every state that meets it: the text in canonical form, `pc` a multiple of 4 (R38: "a run
that starts aligned stays aligned") and every register valued. -/
def Obligations.StepKeepsInvariant : Prop :=
  ∀ s t : State, MachineInv s → step s = .next t → MachineInv t

/-- Where the invariant holds, a step completes, faults for R69's two reasons, or is refused for want of text, of a word in scope
or of address space; it never meets an `unwritten` register or a misaligned `pc`. -/
def Obligations.InvariantRulesOutUnwrittenAndMisaligned : Prop :=
  ∀ s : State, MachineInv s →
    (∃ t, step s = .next t)
      ∨ (step s = .fault .undefined ∧ s.params.haveSM3 = false)
      ∨ (∃ r, step s = .fault (.fpAdvSIMDTrap r) ∧ s.params.haveSM3 = true ∧ s.fpOutcome = .trap r)
      ∨ (step s = .refused .pcWrap ∧ s.pc = 0xFFFFFFFFFFFFFFFC#64)
      ∨ (step s = .refused .noInstructionMemory ∧ s.params.imem.readWord s.pc.toNat = none)
      ∨ (step s = .refused .outOfScope ∧ ∃ w, FetchesWord s w ∧ decode w = .outOfScope)

/-- No step changes `rest` or a parameter: the text is immutable for a run (R45), the general registers, the stack pointer and the
flags stay (R25, R27), the system state behind FPCheck stays (R29), from every state. -/
def Obligations.StepKeepsRestAndParameters : Prop :=
  ∀ s t : State, step s = .next t →
    (∀ a, t.params.imem.read a = s.params.imem.read a) ∧ t.params = s.params
      ∧ (∀ k : Fin 31, t.rest.x[k] = s.rest.x[k]) ∧ t.rest.sp = s.rest.sp ∧ t.nzcv = s.nzcv ∧ t.dit = s.dit
      ∧ t.rest = s.rest

/-- Two memories in canonical form that read alike are equal data (log 9). -/
def Obligations.CanonicalMemoriesThatReadAlikeAreEqual : Prop :=
  ∀ m m' : Memory, m.wf = true → m'.wf = true → (∀ a, m.read a = m'.read a) → m = m'

/-! ### Encoding -/

/-- R48: every bit of the word, fixed or field. -/
def Obligations.EncodingPlacesEveryBit : Prop :=
  ∀ (d n m : RegNo) (i : Lane),
    (encode (.sm3tt1b d n m i)).extractLsb' 21 11 = 0b11001110010#11
      ∧ ((encode (.sm3tt1b d n m i)).extractLsb' 16 5).toNat = m.val
      ∧ (encode (.sm3tt1b d n m i)).extractLsb' 14 2 = 0b10#2
      ∧ ((encode (.sm3tt1b d n m i)).extractLsb' 12 2).toNat = i.val
      ∧ (encode (.sm3tt1b d n m i)).extractLsb' 10 2 = 0b01#2
      ∧ ((encode (.sm3tt1b d n m i)).extractLsb' 5 5).toNat = n.val
      ∧ ((encode (.sm3tt1b d n m i)).extractLsb' 0 5).toNat = d.val

/-- R59: decoding an encoded instruction gives it back, for every operand at every value; and so through its bytes in memory
order (R37). -/
def Obligations.DecodeOfEncodeIsIdentity : Prop :=
  ∀ i : Instr, decode (encode i) = .instr i
    ∧ ∀ rest : List Byte, decodeBytes (encodeBytes i ++ rest) = .instr i rest

/-- R59, the other direction: a word that decodes to an instruction is that instruction's encoding. -/
def Obligations.EncodeOfDecodeIsIdentity : Prop :=
  ∀ (w : Word) (i : Instr), decode w = .instr i → encode i = w

/-- R52: the decode function, field by field, with a field's number read as `UInt` of its bits (R8), and the refusal of a step that
fetches any other word. -/
def Obligations.DecodeIsMatchAndFields : Prop :=
  (∀ w : Word, w &&& 0xFFE0CC00#32 = 0xCE408400#32 →
    ∃ (d n m : RegNo) (i : Lane), decode w = .instr (.sm3tt1b d n m i)
      ∧ d.val = w.toNat % 32 ∧ n.val = w.toNat / 32 % 32 ∧ m.val = w.toNat / 65536 % 32 ∧ i.val = w.toNat / 4096 % 4)
  ∧ (∀ w : Word, w &&& 0xFFE0CC00#32 ≠ 0xCE408400#32 →
    decode w = .outOfScope ∧ ∀ s : State, FetchesWord s w → step s = .refused .outOfScope)

/-- R49: a word matches exactly when its fixed bits are those of the diagram, and exactly when it encodes an instruction. -/
def Obligations.MatchingWordsAreTheEncodings : Prop :=
  ∀ w : Word,
    (w &&& sm3tt1bMask = sm3tt1bMatch ↔
      w.extractLsb' 21 11 = 0b11001110010#11 ∧ w.extractLsb' 14 2 = 0b10#2 ∧ w.extractLsb' 10 2 = 0b01#2)
    ∧ (w &&& sm3tt1bMask = sm3tt1bMatch ↔ ∃ i, encode i = w)

/-- R52, R54: an encoding with any one fixed bit wrong is out of scope, never another instruction. -/
def Obligations.OneWrongFixedBitIsOutOfScope : Prop :=
  ∀ (i : Instr) (b : Fin 32), sm3tt1bMask.getLsbD b.val = true →
    decode (encode i ^^^ (1#32 <<< b.val)) = .outOfScope

/-- Words written out from the spec's encoding (95_test_vectors.md section 2) decode to the instructions they stand for. -/
def Obligations.WrittenWordsDecode : Prop :=
  decode 0b11001110010_00000_10_00_01_00000_00000#32 = .instr (.sm3tt1b 0 0 0 0)
    ∧ decode 0b11001110010_00011_10_10_01_00010_00001#32 = .instr (.sm3tt1b 1 2 3 2)
    ∧ decode 0b11001110010_11111_10_11_01_11111_11111#32 = .instr (.sm3tt1b 31 31 31 3)
    ∧ decode 0b11001110010_11110_10_01_01_10100_01010#32 = .instr (.sm3tt1b 10 20 30 1)
    ∧ decodeBytes [0x41, 0xA4, 0x43, 0xCE] = .instr (.sm3tt1b 1 2 3 2) []

/-- R56, R57: the assembler line written for an instruction is read back as it, for every operand (spelling: D23, log 20). -/
def Obligations.AssemblyReadsBack : Prop :=
  ∀ i : Instr, readInstr (renderInstr i) = some i

/-! ### Fetch, step and the program counter -/

/-- A step runs the decoded instruction: where the word at `pc` decodes to an instruction, the step is `exec` of it in that very
state (`pc` advances inside `exec`, R60, R62). -/
def Obligations.StepRunsTheDecodedInstruction : Prop :=
  ∀ (s : State) (w : Word) (i : Instr), FetchesWord s w → decode w = .instr i → step s = exec i s

/-- R36: the word is the four bytes at `pc`, assembled least significant first (R37), and a missing byte is a refusal. -/
def Obligations.FetchReadsFourBytesLittleEndian : Prop :=
  ∀ s : State, s.pc.toNat % 4 = 0 → s.pc.toNat + 4 < 2 ^ 64 →
    (∀ b0 b1 b2 b3 : Byte, s.params.imem.read s.pc.toNat = some b0 → s.params.imem.read (s.pc.toNat + 1) = some b1 →
      s.params.imem.read (s.pc.toNat + 2) = some b2 → s.params.imem.read (s.pc.toNat + 3) = some b3 →
        FetchesWord s (b3 ++ b2 ++ b1 ++ b0))
    ∧ ((∃ k < 4, s.params.imem.read (s.pc.toNat + k) = none) → step s = .refused .noInstructionMemory)

/-- R38: a step with a misaligned `pc` is refused, and a step that completes leaves `pc` aligned. -/
def Obligations.MisalignedPcIsRefused : Prop :=
  (∀ s : State, s.pc.extractLsb' 0 2 ≠ 0#2 → step s = .refused .pcMisaligned)
    ∧ ∀ s t : State, step s = .next t → t.pc.extractLsb' 0 2 = 0#2

/-- R62: a completed step adds 4 to `pc` as a number; where the sum would reach 2^64 the step is refused, which for an aligned `pc`
is one value; a step that stops leaves `pc`. -/
def Obligations.PcAdvancesByFourOrIsRefused : Prop :=
  (∀ s t : State, step s = .next t → t.pc.toNat = s.pc.toNat + 4)
    ∧ (∀ s : State, s.pc.toNat % 4 = 0 → 2 ^ 64 ≤ s.pc.toNat + 4 → step s = .refused .pcWrap)
    ∧ (∀ s : State, s.pc.toNat % 4 = 0 → (2 ^ 64 ≤ s.pc.toNat + 4 ↔ s.pc = 0xFFFFFFFFFFFFFFFC#64))
    ∧ (∀ s : State, (∀ t, step s ≠ .next t) → (stateAfter s).pc = s.pc)

/-- R74, R61: the eight checks in their order; the first that fails decides. -/
def Obligations.ChecksRunInOrder : Prop :=
  ∀ s : State,
    (s.pc.toNat % 4 ≠ 0 → step s = .refused .pcMisaligned)
    ∧ (s.pc.toNat % 4 = 0 → 2 ^ 64 ≤ s.pc.toNat + 4 → step s = .refused .pcWrap)
    ∧ (s.pc.toNat % 4 = 0 → s.pc.toNat + 4 < 2 ^ 64 → (∃ k < 4, s.params.imem.read (s.pc.toNat + k) = none) →
        step s = .refused .noInstructionMemory)
    ∧ ∀ w, FetchesWord s w →
        (w &&& sm3tt1bMask ≠ sm3tt1bMatch → step s = .refused .outOfScope)
        ∧ ∀ (d n m : RegNo) (i : Lane), decode w = .instr (.sm3tt1b d n m i) →
            (s.params.haveSM3 = false → step s = .fault .undefined)
            ∧ (∀ r, s.params.haveSM3 = true → s.fpOutcome = .trap r → step s = .fault (.fpAdvSIMDTrap r))
            ∧ (Enabled s → (s.v[m] = .unwritten ∨ s.v[n] = .unwritten ∨ s.v[d] = .unwritten) →
                step s = .refused .unwrittenRegister)
            ∧ (∀ vm vn vd, Enabled s → s.v[m] = .value vm → s.v[n] = .value vn → s.v[d] = .value vd →
                step s = .next { s with v := s.v.set d (.value (sm3tt1bResult vd vn vm i)), pc := s.pc + 4 })

/-- R18, R72: the outcomes a step has; a run whose step faults or is refused is not complete; and a failed fetch is one of three
refusals, each of which only a failed fetch answers. -/
def Obligations.StepHasOnlyTheNamedOutcomes : Prop :=
  (∀ s : State,
    (∃ t, step s = .next t) ∨ step s = .fault .undefined ∨ (∃ r, step s = .fault (.fpAdvSIMDTrap r))
      ∨ step s = .refused .outOfScope ∨ step s = .refused .noInstructionMemory ∨ step s = .refused .pcWrap
      ∨ step s = .refused .pcMisaligned ∨ step s = .refused .unwrittenRegister)
  ∧ (∀ (s t : State) (stop : EndAddr) (k : Nat), s.pc ≠ stop.addr → (∀ u, step s ≠ .next u) → runTo stop k s ≠ .complete t)
  ∧ (∀ s : State, (¬ ∃ w, FetchesWord s w) ↔
      step s = .refused .pcMisaligned ∨ step s = .refused .pcWrap ∨ step s = .refused .noInstructionMemory)

/-- R69, R70, R71: exactly two faults, each exactly under its cause, each leaving the state as it was. No clause speaks of the
registers, so neither fault depends on what they hold. -/
def Obligations.FaultsExactlyUnderTheirCauses : Prop :=
  (∀ s : State, step s = .fault .undefined ↔
    (∃ w i, FetchesWord s w ∧ decode w = .instr i) ∧ s.params.haveSM3 = false)
  ∧ (∀ (s : State) (r : TrapReason), step s = .fault (.fpAdvSIMDTrap r) ↔
    (∃ w i, FetchesWord s w ∧ decode w = .instr i) ∧ s.params.haveSM3 = true ∧ s.fpOutcome = .trap r)
  ∧ (∀ (s : State) (f : Fault), step s = .fault f → (f = .undefined ∨ ∃ r, f = .fpAdvSIMDTrap r) ∧ stateAfter s = s)

/-- R53: a matching word is undefined without the feature, and a valid instruction with it. -/
def Obligations.MatchingWordNeedsTheFeature : Prop :=
  ∀ (s : State) (w : Word), FetchesWord s w → w &&& sm3tt1bMask = sm3tt1bMatch →
    (s.params.haveSM3 = false → step s = .fault .undefined)
    ∧ (s.params.haveSM3 = true → (∃ i, decode w = .instr i) ∧ step s ≠ .fault .undefined)

/-- The word a load from outside places at `pc` is the one the next step runs, and no other byte of the text changes
(the model's way for a program to come to run: log 10). -/
def Obligations.PlacedWordIsTheOneThatRuns : Prop :=
  ∀ (s : State) (w : Nat) (i : Instr), s.pc.toNat % 4 = 0 → s.pc.toNat + 4 < 2 ^ 64 → decodeTableWord 32 w = some i →
    step (s.withFetchWord 32 w) = exec i (s.withFetchWord 32 w)
      ∧ (∀ a, a < s.pc.toNat ∨ s.pc.toNat + 4 ≤ a → (s.withFetchWord 32 w).params.imem.read a = s.params.imem.read a)
      ∧ (s.params.imem.wf = true → (s.withFetchWord 32 w).params.imem.wf = true)

/-! ### Registers and elements -/

/-- R13, R17, R21: every one of the 32 registers, register 31 too, reads back the 128 bits written, and no other changes; the mark
`unwritten` goes with a write. -/
def Obligations.RegisterWriteReadsBack : Prop :=
  ∀ (s : State) (k : RegNo) (q : Quad), (s.writeV k q).readV k = some q ∧ (s.writeV k q).v[k] = .value q
    ∧ (∀ j, j ≠ k → (s.writeV k q).v[j] = s.v[j]) ∧ (s.writeV k q).pc = s.pc ∧ (s.writeV k q).rest = s.rest
    ∧ (s.writeV k q).params = s.params

/-- R22: the four elements are the four slices, and the value is its elements set side by side. -/
def Obligations.ElementsAreTheFourSlices : Prop :=
  ∀ q : Quad,
    (∀ j < 32, (elem q 0).getLsbD j = q.getLsbD j ∧ (elem q 1).getLsbD j = q.getLsbD (32 + j)
      ∧ (elem q 2).getLsbD j = q.getLsbD (64 + j) ∧ (elem q 3).getLsbD j = q.getLsbD (96 + j))
    ∧ ofElems (elem q 3) (elem q 2) (elem q 1) (elem q 0) = q
    ∧ ∀ e3 e2 e1 e0 : Word, elem (ofElems e3 e2 e1 e0) 3 = e3 ∧ elem (ofElems e3 e2 e1 e0) 2 = e2
        ∧ elem (ofElems e3 e2 e1 e0) 1 = e1 ∧ elem (ofElems e3 e2 e1 e0) 0 = e0

/-! ### SM3TT1B -/

/-- R60: the pseudocode from slice to slice. With the feature, access and three valued registers, and `pc + 4` inside the address space (R62; the other
`pc` is `MeaningAloneAddsModuloTwoPow64`), the instruction completes in the state the pseudocode gives, everything else (the flags among it) as before; then the two faults, the refusal, the encoding, the all-zero
corner and the worked example. -/
def Obligations.CompletesAsThePseudocodeSays : Prop :=
  (∀ (d n m : RegNo) (i : Lane) (s : State) (vm vn vd : Quad), Enabled s → s.pc.toNat + 4 < 2 ^ 64 →
    s.v[m] = .value vm → s.v[n] = .value vn → s.v[d] = .value vd →
    let wj := vm.extractLsb' (32 * i.val) 32
    let a := vd.extractLsb' 96 32
    let b := vd.extractLsb' 64 32
    let c := vd.extractLsb' 32 32
    let ss2 := vn.extractLsb' 96 32 ^^^ (a <<< 12 ||| a >>> 20)
    let tt1 := ((a &&& c) ||| (a &&& b) ||| (c &&& b)) + vd.extractLsb' 0 32 + ss2 + wj
    exec (.sm3tt1b d n m i) s =
      .next { s with v := s.v.set d (.value (tt1 ++ a ++ (b <<< 9 ||| b >>> 23) ++ c)), pc := s.pc + 4 })
  ∧ (∀ (d n m : RegNo) (i : Lane) (s : State),
      (s.params.haveSM3 = false → exec (.sm3tt1b d n m i) s = .fault .undefined)
      ∧ (∀ r, s.params.haveSM3 = true → s.fpOutcome = .trap r → exec (.sm3tt1b d n m i) s = .fault (.fpAdvSIMDTrap r))
      ∧ (Enabled s → (s.v[m] = .unwritten ∨ s.v[n] = .unwritten ∨ s.v[d] = .unwritten) →
          exec (.sm3tt1b d n m i) s = .refused .unwrittenRegister))
  ∧ (∀ w : Word, w &&& 0xFFE0CC00#32 = 0xCE408400#32 →
      decode w = .instr (.sm3tt1b (w.extractLsb' 0 5).toFin (w.extractLsb' 5 5).toFin (w.extractLsb' 16 5).toFin
        (w.extractLsb' 12 2).toFin))
  ∧ (∀ (d : RegNo) (s : State), Enabled s → s.pc.toNat + 4 < 2 ^ 64 → s.v[d] = .value 0x00000001000000020000000300000004#128 →
      ∃ t, exec (.sm3tt1b d d d 3) s = .next t ∧ t.v[d] = .value 0x00001009000000010000040000000003#128)
  ∧ (∀ (d n m : RegNo) (i : Lane) (s : State), Enabled s → s.pc.toNat + 4 < 2 ^ 64 →
      s.v[d] = .value 0 → s.v[n] = .value 0 → s.v[m] = .value 0 →
      ∃ t, exec (.sm3tt1b d n m i) s = .next t ∧ t.v[d] = .value 0)

/-- R63: the result element by element, and that elements 0 to 2 of `V[n]` and the elements of `V[m]` not chosen by `i` have no
effect on it. -/
def Obligations.ResultElementByElement : Prop :=
  ∀ (d n m : RegNo) (i : Lane) (s : State) (vm vn vd : Quad), Enabled s →
    s.readV m = some vm → s.readV n = some vn → s.readV d = some vd →
    ∃ t r, exec (.sm3tt1b d n m i) s = .next t ∧ t.readV d = some r
      ∧ elem r 3 = ((elem vd 3 &&& elem vd 1) ||| (elem vd 3 &&& elem vd 2) ||| (elem vd 1 &&& elem vd 2)) + elem vd 0
          + (elem vn 3 ^^^ rol32 (elem vd 3) 12) + elem vm i
      ∧ elem r 2 = elem vd 3 ∧ elem r 1 = rol32 (elem vd 2) 9 ∧ elem r 0 = elem vd 1
      ∧ ∀ (vn' vm' : Quad) (s' : State), elem vn' 3 = elem vn 3 → elem vm' i = elem vm i → Enabled s' →
          s'.readV m = some vm' → s'.readV n = some vn' → s'.readV d = some vd →
          ∃ t', exec (.sm3tt1b d n m i) s' = .next t' ∧ t'.readV d = some r

/-- R33: the frame. A completed SM3TT1B changes `V[d]` and `pc` alone: every other register keeps its value or its mark, and the
flags, the other state, the parameters and every byte of the text stay; a step that stops changes nothing. `pc` is said where
`pc + 4` is inside the address space, as in every step (R62); at the one other `pc` see `MeaningAloneAddsModuloTwoPow64`. -/
def Obligations.CompletedInstructionFrame : Prop :=
  (∀ (d n m : RegNo) (i : Lane) (s t : State), exec (.sm3tt1b d n m i) s = .next t →
    (∀ k, k ≠ d → t.v[k] = s.v[k])
    ∧ (∃ vm vn vd, s.v[m] = .value vm ∧ s.v[n] = .value vn ∧ s.v[d] = .value vd
        ∧ t.v[d] = .value (sm3tt1bResult vd vn vm i))
    ∧ (s.pc.toNat + 4 < 2 ^ 64 → t.pc.toNat = s.pc.toNat + 4)
    ∧ t.rest = s.rest ∧ t.nzcv = s.nzcv ∧ t.params = s.params
    ∧ ∀ a, t.params.imem.read a = s.params.imem.read a)
  ∧ ∀ s : State, (∀ t, step s ≠ .next t) → stateAfter s = s

/-- R64: every operand is the register's old value when register numbers coincide, for each way they can; and no completed
instruction gives a value to a register marked `unwritten`, nor takes one away. -/
def Obligations.CoincidingRegistersReadOldValues : Prop :=
  (∀ (d : RegNo) (i : Lane) (s : State) (q : Quad), Enabled s → s.readV d = some q →
    (∃ t r, exec (.sm3tt1b d d d i) s = .next t ∧ t.readV d = some r
      ∧ elem r 3 = maj (elem q 3) (elem q 2) (elem q 1) + elem q 0 + (elem q 3 ^^^ rol32 (elem q 3) 12) + elem q i
      ∧ elem r 2 = elem q 3 ∧ elem r 1 = rol32 (elem q 2) 9 ∧ elem r 0 = elem q 1)
    ∧ (∀ (m : RegNo) (vm : Quad), s.readV m = some vm → ∃ t r, exec (.sm3tt1b d d m i) s = .next t ∧ t.readV d = some r
      ∧ elem r 3 = maj (elem q 3) (elem q 2) (elem q 1) + elem q 0 + (elem q 3 ^^^ rol32 (elem q 3) 12) + elem vm i
      ∧ elem r 2 = elem q 3 ∧ elem r 1 = rol32 (elem q 2) 9 ∧ elem r 0 = elem q 1)
    ∧ (∀ (n : RegNo) (vn : Quad), s.readV n = some vn →
      (∃ t r, exec (.sm3tt1b d n d i) s = .next t ∧ t.readV d = some r
        ∧ elem r 3 = maj (elem q 3) (elem q 2) (elem q 1) + elem q 0 + (elem vn 3 ^^^ rol32 (elem q 3) 12) + elem q i
        ∧ elem r 2 = elem q 3 ∧ elem r 1 = rol32 (elem q 2) 9 ∧ elem r 0 = elem q 1)
      ∧ (∃ t r, exec (.sm3tt1b d n n i) s = .next t ∧ t.readV d = some r
        ∧ elem r 3 = maj (elem q 3) (elem q 2) (elem q 1) + elem q 0 + (elem vn 3 ^^^ rol32 (elem q 3) 12) + elem vn i
        ∧ elem r 2 = elem q 3 ∧ elem r 1 = rol32 (elem q 2) 9 ∧ elem r 0 = elem q 1)))
  ∧ ∀ (j : Instr) (s t : State), exec j s = .next t →
      (∀ k : RegNo, (t.v[k] = .unwritten ↔ s.v[k] = .unwritten)) ∧ ∀ k ∈ readsOf j, s.v[k] ≠ .unwritten

/-- R65: the top element is the exact sum of four unsigned numbers modulo 2^32, whether reduced once or after each addition,
and in either order. -/
def Obligations.TopElementIsTheSumModuloTwoPow32 : Prop :=
  ∀ (d n m : RegNo) (i : Lane) (s : State) (vm vn vd : Quad), Enabled s →
    s.readV m = some vm → s.readV n = some vn → s.readV d = some vd →
    ∃ t r, exec (.sm3tt1b d n m i) s = .next t ∧ t.readV d = some r
      ∧ (elem r 3).toNat = ((maj (elem vd 3) (elem vd 2) (elem vd 1)).toNat + (elem vd 0).toNat + (sm3ss2 vn vd).toNat
          + (elem vm i).toNat) % 2 ^ 32
      ∧ (elem r 3).toNat = ((((maj (elem vd 3) (elem vd 2) (elem vd 1)).toNat + (elem vd 0).toNat) % 2 ^ 32
          + (sm3ss2 vn vd).toNat) % 2 ^ 32 + (elem vm i).toNat) % 2 ^ 32
      ∧ elem r 3 = elem vm i + (sm3ss2 vn vd + (elem vd 0 + maj (elem vd 3) (elem vd 2) (elem vd 1)))

/-- R66: both rotates move bit `j` to bit `(j + s) mod 32`, are the shifts R66 writes, lose no bit, and give its examples. -/
def Obligations.RotatesMoveBitsLeft : Prop :=
  (∀ (x : Word) (sh : Nat), (sh = 12 ∨ sh = 9) →
    (∀ j < 32, (rol32 x sh).getLsbD ((j + sh) % 32) = x.getLsbD j)
    ∧ (∀ y : Word, rol32 x sh = rol32 y sh → x = y)
    ∧ rol32 0xFFFFFFFF#32 sh = 0xFFFFFFFF#32 ∧ rol32 0#32 sh = 0#32)
  ∧ (∀ x : Word, rol32 x 12 = (x <<< 12 ||| x >>> 20) ∧ rol32 x 9 = (x <<< 9 ||| x >>> 23))
  ∧ rol32 0x80000001#32 12 = 0x00001800#32 ∧ rol32 0x80000001#32 9 = 0x00000300#32

/-- R67: a bit of the majority is 1 exactly when at least two of the three bits are; it is symmetric; R67's three identities and
its example hold. -/
def Obligations.MajorityIsAtLeastTwoOfThree : Prop :=
  (∀ (a b c : Word) (j : Nat), (maj a b c).getLsbD j = true ↔
    2 ≤ (a.getLsbD j).toNat + (b.getLsbD j).toNat + (c.getLsbD j).toNat)
  ∧ (∀ a b c : Word, maj a b c = maj b a c ∧ maj a b c = maj a c b ∧ maj a b c = maj c b a)
  ∧ (∀ x y : Word, maj x x y = x ∧ maj x y 0 = x &&& y ∧ maj x y 0xFFFFFFFF#32 = x ||| y)
  ∧ maj 0xF0F0F0F0#32 0xCCCCCCCC#32 0xAAAAAAAA#32 = 0xE8E8E8E8#32

/-- R32, R40, R82: the result is a function of the three register values and the index alone: two states that agree on them, both
enabled, get the same value, whatever `pc`, the other registers, `rest`, the text and DIT are. -/
def Obligations.ResultDependsOnOperandsAlone : Prop :=
  ∀ (d n m : RegNo) (i : Lane) (s s' : State), Enabled s → Enabled s' →
    (∀ k ∈ readsOf (.sm3tt1b d n m i), s.v[k] = s'.v[k] ∧ s.v[k] ≠ .unwritten) →
    ∃ t t', exec (.sm3tt1b d n m i) s = .next t ∧ exec (.sm3tt1b d n m i) s' = .next t' ∧ t.v[d] = t'.v[d]

/-- R28: PSTATE.DIT has no effect on what a step does: with DIT set to any value the step has the same outcome, and its next state
differs in DIT alone. -/
def Obligations.DitChangesNoOutcome : Prop :=
  ∀ (s : State) (b : Bool),
    (∀ t, step s = .next t → step { s with params := { s.params with dit := b } } =
      .next { t with params := { t.params with dit := b } })
    ∧ (∀ f, step s = .fault f → step { s with params := { s.params with dit := b } } = .fault f)
    ∧ (∀ r, step s = .refused r → step { s with params := { s.params with dit := b } } = .refused r)

/-- R42, R88: no hazard: the instruction after sees the value the first wrote, in whichever operand it names it, and the old value
of every other register. FPCheck may read anything, so long as it answers ok in both states (R86); neither instruction is at the top
of the address space (R62). -/
def Obligations.NextInstructionSeesTheNewValue : Prop :=
  ∀ (d n m d2 n2 m2 : RegNo) (i i2 : Lane) (s : State) (vm vn vd vm2 vn2 vd2 : Quad), Enabled s →
    (∀ t, exec (.sm3tt1b d n m i) s = .next t → t.fpOutcome = .ok) → s.pc.toNat + 8 < 2 ^ 64 →
    s.readV m = some vm → s.readV n = some vn → s.readV d = some vd →
    (if m2 = d then vm2 = sm3tt1bResult vd vn vm i else s.readV m2 = some vm2) →
    (if n2 = d then vn2 = sm3tt1bResult vd vn vm i else s.readV n2 = some vn2) →
    (if d2 = d then vd2 = sm3tt1bResult vd vn vm i else s.readV d2 = some vd2) →
    ∃ t u, exec (.sm3tt1b d n m i) s = .next t ∧ exec (.sm3tt1b d2 n2 m2 i2) t = .next u
      ∧ u.readV d2 = some (sm3tt1bResult vd2 vn2 vm2 i2) ∧ u.pc.toNat = s.pc.toNat + 8

/-- The model's choice of log 21, said by itself: the meaning alone, at the one aligned `pc` from which R62 lets no step start, adds
4 modulo 2^64; the step there is refused. -/
def Obligations.MeaningAloneAddsModuloTwoPow64 : Prop :=
  ∀ (d n m : RegNo) (i : Lane) (s : State) (vm vn vd : Quad), Enabled s → s.pc = 0xFFFFFFFFFFFFFFFC#64 →
    s.v[m] = .value vm → s.v[n] = .value vn → s.v[d] = .value vd →
    exec (.sm3tt1b d n m i) s = .next { s with v := s.v.set d (.value (sm3tt1bResult vd vn vm i)), pc := 0 }
      ∧ step s = .refused .pcWrap

/-- R86, premise 2: where FPCheck reads `rest` alone, enabled before a step is enabled after it. -/
def Obligations.EnabledStaysEnabled : Prop :=
  ∀ s t : State, FPCheckReadsRestOnly s.params.fpCheck → Enabled s → step s = .next t → Enabled t

/-! ### Runs -/

/-- R86, premise 2, the parenthesis: where FPCheck reads `rest` alone, enabled at launch is enabled in every state of the run, so
the premise need only be asked of the launch state. -/
def Obligations.RestOnlyCheckStaysOkAlongTheRun : Prop :=
  ∀ (s : State) (k : Nat), FPCheckReadsRestOnly s.params.fpCheck → Enabled s →
    EnabledThroughout s k ∧ ∀ t, Host.Core.run Sys2Proof.core k s = .next t → Enabled t

/-- R87: no step is taken from the end address END, a multiple of 4, however many are allowed (log 25). -/
def Obligations.NoStepFromTheEndAddress : Prop :=
  ∀ (s : State) (stop : EndAddr) (k : Nat), s.pc = stop.addr → runTo stop k s = .complete s

/-- R76, R87: a run is complete in `u`, or faults or is refused in `u`, exactly when some number of completed steps leads to `u`
without passing the end address, and `u` is at it, or the step from `u` is that stop; and completed steps are whole instructions: a
state they lead to holds the effects of the words it has passed, one after the other, and nothing of a stopped one, with `rest` and
the parameters as launched (R33). `runTo` is log 25's. -/
def Obligations.RunEndsAfterWholeInstructions : Prop :=
  (∀ (s u : State) (stop : EndAddr) (k : Nat), runTo stop k s = .complete u ↔
    ∃ j ≤ k, Host.Core.run Sys2Proof.core j s = .next u ∧ NotYetAt stop j s ∧ u.pc = stop.addr)
  ∧ (∀ (s u : State) (f : Fault) (stop : EndAddr) (k : Nat), runTo stop k s = .faulted f u ↔
    ∃ j < k, Host.Core.run Sys2Proof.core j s = .next u ∧ NotYetAt stop (j + 1) s ∧ step u = .fault f)
  ∧ (∀ (s u : State) (r : Refusal) (stop : EndAddr) (k : Nat), runTo stop k s = .refused r u ↔
    ∃ j < k, Host.Core.run Sys2Proof.core j s = .next u ∧ NotYetAt stop (j + 1) s ∧ step u = .refused r)
  ∧ (∀ (s u : State) (j : Nat), Host.Core.run Sys2Proof.core j s = .next u →
    ∃ text : List Instr, text.length = j ∧ TextAt s.params.imem s.pc.toNat text ∧ u.v = text.foldl regsAfter s.v
      ∧ u.pc.toNat = s.pc.toNat + 4 * j ∧ u.rest = s.rest ∧ u.params = s.params)

/-- R87: every run to END = BASE + 4k ends, complete, faulted or refused, after at most `k` steps, from every state (log 25). -/
def Obligations.EveryRunEndsByItsEndAddress : Prop :=
  ∀ (s : State) (stop : EndAddr) (k : Nat), stop.addr.toNat = s.pc.toNat + 4 * k → ∀ u, runTo stop k s ≠ .unfinished u

/-- R87, under the launch premises of R86: a text of `k` instructions launched at `pc` is complete at END = pc + 4k after exactly
`k` steps and not before, with the register file that the instructions' effects give one after the other and all else as
launched. It is a statement of every text of SM3TT1B words, from every launch state, with any FPCheck that answers ok in every state
the run passes through. `runTo` is log 25's. -/
def Obligations.LaunchedTextCompletesInAsManySteps : Prop :=
  ∀ (s : State) (text : List Instr) (stop : EndAddr), LaunchReady s text →
    stop.addr.toNat = s.pc.toNat + 4 * text.length →
    ∃ t, Host.Core.run Sys2Proof.core text.length s = .next t
      ∧ (∀ k, runTo stop k s = .complete t ↔ text.length ≤ k)
      ∧ t.pc = stop.addr
      ∧ t.v = text.foldl regsAfter s.v ∧ t.rest = s.rest ∧ t.params = s.params

/-- R68's promise is of one instruction's time, and is assumed of the hardware's timing function, not proved of it (R90). With the
model's own reading of the data (`DifferInDataOnly`, log 22) and of a text's time as the sum of its instructions' times
(`textCycles`, log 27), it follows that with DIT 1 a whole text's time does not depend on the data in the registers or on the flags. -/
def Obligations.PromisedTimeOfATextIsDataIndependent : Prop :=
  ∀ (cycles : Instr → State → Nat) (s t : State) (text : List Instr), TimingPromise cycles →
    LaunchReady s text → LaunchReady t text → s.params.dit = true → DifferInDataOnly s t →
    textCycles cycles text s = textCycles cycles text t
end

