-- ==== Sys2Proof/Laws/Decode.lean ====
section
/-! SUPPORT. The encoder as fields set side by side, and bytes and words. -/

namespace Sys2Proof

/-- A word put together from its bytes is the word (R37). -/
@[simp] theorem wordLE_wordBytes (w : Word) :
    wordLE (w.extractLsb' 0 8) (w.extractLsb' 8 8) (w.extractLsb' 16 8) (w.extractLsb' 24 8) = w := by
  apply BitVec.eq_of_getLsbD_eq
  intro j hj
  simp only [wordLE, BitVec.getLsbD_append, BitVec.getLsbD_extractLsb']
  interval_cases j <;> simp

/-- A 5-bit number as a word is the 5-bit field, extended. -/
theorem ofNat_regNo (k : RegNo) : BitVec.ofNat 32 k.val = (BitVec.ofFin (w := 5) k).setWidth 32 :=
  BitVec.eq_of_toNat_eq (by simp)

/-- A 2-bit number as a word is the 2-bit field, extended. -/
theorem ofNat_lane (i : Lane) : BitVec.ofNat 32 i.val = (BitVec.ofFin (w := 2) i).setWidth 32 :=
  BitVec.eq_of_toNat_eq (by simp)

/-- R59's formula is R48's diagram: the fields and the fixed bits set side by side. -/
theorem encode_eq_append (d n m : RegNo) (i : Lane) :
    encode (.sm3tt1b d n m i) = 0b11001110010#11 ++ BitVec.ofFin (w := 5) m ++ 0b10#2 ++ BitVec.ofFin (w := 2) i
      ++ 0b01#2 ++ BitVec.ofFin (w := 5) n ++ BitVec.ofFin (w := 5) d := by
  simp only [encode, ofNat_regNo, ofNat_lane, sm3tt1bMatch]
  generalize BitVec.ofFin (w := 5) d = d'
  generalize BitVec.ofFin (w := 5) n = n'
  generalize BitVec.ofFin (w := 5) m = m'
  generalize BitVec.ofFin (w := 2) i = i'
  apply BitVec.eq_of_getLsbD_eq
  intro j hj
  simp only [BitVec.getLsbD_append, BitVec.getLsbD_or, BitVec.getLsbD_shiftLeft, BitVec.getLsbD_setWidth]
  interval_cases j <;> simp

end Sys2Proof
end

