-- ==== Sys2Proof/Laws/Memory.lean ====
section
/-! SUPPORT. The instruction memory: reading after placing a byte, the canonical form kept by every operation, and what reading a
word says. -/

namespace Sys2Proof.Machine

@[simp] theorem Memory.read_nil (a : Nat) : Memory.read [] a = none := rfl

@[simp] theorem Memory.read_cons (c : Host.Cell) (m : Memory) (a : Nat) :
    Memory.read (c :: m) a = if c.1 = a then some c.2 else m.read a := rfl

/-- Placing a byte gives it at its own address and leaves every other address alone. -/
@[simp] theorem Memory.read_insert (m : Memory) (a a' : Nat) (b : Byte) :
    (m.insert a b).read a' = if a = a' then some b else m.read a' := by
  induction m with
  | nil => rfl
  | cons c m ih =>
    simp only [Memory.insert]
    split
    · rfl
    · split
      · simp only [Memory.read_cons]
        split
        · rfl
        · rw [if_neg (by omega)]
      · simp only [Memory.read_cons, ih]
        grind

@[simp] theorem Memory.read_write (m : Memory) (a : Addr) (a' : Nat) (b : Byte) :
    (m.write a b).read a' = if a.toNat = a' then some b else m.read a' :=
  Memory.read_insert m a.toNat a' b

theorem Memory.wfFrom_insert {m : Memory} {lo a : Nat} (b : Byte) (h : m.wfFrom lo = true) (hlo : lo ≤ a)
    (ha : a < 2 ^ 64) : (m.insert a b).wfFrom lo = true := by
  induction m generalizing lo with
  | nil => simp [Memory.insert, Memory.wfFrom]; omega
  | cons c m ih =>
    simp only [Memory.wfFrom, Bool.and_eq_true, decide_eq_true_eq] at h
    simp only [Memory.insert]
    split
    · simp [Memory.wfFrom, h.2]; omega
    · split
      · subst_vars
        simpa [Memory.wfFrom] using h
      · simp only [Memory.wfFrom, Bool.and_eq_true, decide_eq_true_eq]
        exact ⟨h.1, ih h.2 (by omega)⟩

/-- Placing a byte keeps the canonical form (log 9). -/
theorem Memory.wf_write {m : Memory} (a : Addr) (b : Byte) (h : m.wf = true) : (m.write a b).wf = true :=
  Memory.wfFrom_insert b h (Nat.zero_le _) a.isLt

/-- Placing bytes keeps the canonical form (log 9). -/
theorem Memory.wf_writeBytes {m : Memory} (a : Addr) (bs : List Byte) (h : m.wf = true) :
    (m.writeBytes a bs).wf = true := by
  induction bs generalizing m a with
  | nil => exact h
  | cons b bs ih => exact ih (a + 1) (Memory.wf_write a b h)

/-- The memory of the reset state is in canonical form. -/
theorem Memory.wf_reset : State.reset.params.imem.wf = true := rfl

theorem Memory.read_lt_of_wfFrom {m : Memory} {lo a : Nat} (h : m.wfFrom lo = true) (ha : a < lo) :
    m.read a = none := by
  induction m generalizing lo with
  | nil => rfl
  | cons c m ih =>
    simp only [Memory.wfFrom, Bool.and_eq_true, decide_eq_true_eq] at h
    rw [Memory.read_cons, if_neg (by omega)]
    exact ih h.2 (by omega)

/-- What reading a word says: the four bytes are there, lowest address least significant (R36, R37). -/
theorem Memory.readWord_eq_some {m : Memory} {a : Nat} {w : Word} :
    m.readWord a = some w ↔ ∃ b0 b1 b2 b3, m.read a = some b0 ∧ m.read (a + 1) = some b1 ∧ m.read (a + 2) = some b2
      ∧ m.read (a + 3) = some b3 ∧ w = wordLE b0 b1 b2 b3 := by
  simp only [Memory.readWord, bind, Option.bind_eq_some_iff, pure, Option.some.injEq]
  grind

/-- No word is read exactly where one of its four bytes is absent (R36). -/
theorem Memory.readWord_eq_none {m : Memory} {a : Nat} :
    m.readWord a = none ↔ m.read a = none ∨ m.read (a + 1) = none ∨ m.read (a + 2) = none ∨ m.read (a + 3) = none := by
  unfold Memory.readWord
  cases m.read a <;> cases m.read (a + 1) <;> cases m.read (a + 2) <;> cases m.read (a + 3) <;> simp

end Sys2Proof.Machine
end

