-- ==== Sys2Proof/Laws/PerInstr.lean ====
section
/-! SUPPORT. Statements made once per instruction: its operands as plain numbers pass the checks and give it back, and its word has
the fixed bits of its row in the opcode table. -/

namespace Sys2Proof.Laws.Shape

/-- The operands are in range, checking them gives the instruction back, and its word matches its row (R49, R59). -/
def Statement (i : Instr) : Prop :=
  i.raw.wf = true ∧ i.raw.toInstr? = some i ∧ encode i &&& sm3tt1bMask = sm3tt1bMatch

theorem sm3tt1b (d n m : RegNo) (i : Lane) : Statement (.sm3tt1b d n m i) := by
  refine ⟨by simp [Instr.raw, RawInstr.wf], by simp [Instr.raw, RawInstr.toInstr?], ?_⟩
  rw [encode_eq_append]
  generalize BitVec.ofFin (w := 5) d = d'
  generalize BitVec.ofFin (w := 5) n = n'
  generalize BitVec.ofFin (w := 5) m = m'
  generalize BitVec.ofFin (w := 2) i = i'
  apply BitVec.eq_of_getLsbD_eq
  intro j hj
  simp only [BitVec.getLsbD_append, BitVec.getLsbD_and, sm3tt1bMask, sm3tt1bMatch]
  interval_cases j <;> simp

end Sys2Proof.Laws.Shape
end

