-- ==== Sys2Proof/Laws/State.lean ====
section
/-! SUPPORT. One lemma per field per update of the state, and what reading a register gives after each. -/

namespace Sys2Proof.Machine

variable (s : State) (k j : RegNo) (q : Quad) (w : Word) (nbits u : Nat)

@[simp] theorem State.writeV_v : (s.writeV k q).v = s.v.set k (.value q) := rfl
@[simp] theorem State.writeV_pc : (s.writeV k q).pc = s.pc := rfl
@[simp] theorem State.writeV_rest : (s.writeV k q).rest = s.rest := rfl
@[simp] theorem State.writeV_params : (s.writeV k q).params = s.params := rfl

@[simp] theorem State.advance_v : s.advance.v = s.v := rfl
@[simp] theorem State.advance_pc : s.advance.pc = s.pc + 4 := rfl
@[simp] theorem State.advance_rest : s.advance.rest = s.rest := rfl
@[simp] theorem State.advance_params : s.advance.params = s.params := rfl

@[simp] theorem State.loadWord_v : (s.loadWord w).v = s.v := rfl
@[simp] theorem State.loadWord_pc : (s.loadWord w).pc = s.pc := rfl
@[simp] theorem State.loadWord_rest : (s.loadWord w).rest = s.rest := rfl
@[simp] theorem State.loadWord_haveSM3 : (s.loadWord w).params.haveSM3 = s.params.haveSM3 := rfl
@[simp] theorem State.loadWord_fpCheck : (s.loadWord w).params.fpCheck = s.params.fpCheck := rfl
@[simp] theorem State.loadWord_dit : (s.loadWord w).params.dit = s.params.dit := rfl
@[simp] theorem State.loadWord_imem :
    (s.loadWord w).params.imem = s.params.imem.writeBytes s.pc (wordBytes w) := rfl

@[simp] theorem State.withFetchWord_eq : s.withFetchWord nbits u = s.loadWord (tableWord nbits u) := rfl

@[simp] theorem State.nzcv_eq : s.nzcv = s.rest.nzcv := rfl
@[simp] theorem State.dit_eq : s.dit = s.params.dit := rfl

@[simp] theorem VReg.value?_value : (VReg.value q).value? = some q := rfl
@[simp] theorem VReg.value?_unwritten : VReg.unwritten.value? = none := rfl

/-- A register reads as a value exactly when that value is its content. -/
theorem State.readV_eq_some : s.readV k = some q ↔ s.v[k] = .value q := by
  unfold State.readV readReg
  cases s.v[k] <;> simp

/-- A register reads as nothing exactly when it is marked `unwritten`. -/
theorem State.readV_eq_none : s.readV k = none ↔ s.v[k] = .unwritten := by
  unfold State.readV readReg
  cases s.v[k] <;> simp

/-- A register read after a register write: the written value at its own number, the old content elsewhere (R17, R21). -/
@[simp] theorem State.readV_writeV :
    (s.writeV k q).readV j = if k = j then some q else s.readV j := by
  by_cases h : k = j <;> simp [State.readV, readReg, Vector.getElem_set, h]
  · simp [Fin.val_ne_of_ne h]

@[simp] theorem State.readV_advance : s.advance.readV j = s.readV j := rfl
@[simp] theorem State.readV_loadWord : (s.loadWord w).readV j = s.readV j := rfl

/-- The enable check reads the parameter and R20's state, nothing else (log 2). -/
theorem State.fpOutcome_congr {s t : State} (hp : s.params.fpCheck = t.params.fpCheck) (hv : s.v = t.v)
    (hpc : s.pc = t.pc) (hr : s.rest = t.rest) : s.fpOutcome = t.fpOutcome := by
  simp [State.fpOutcome, hp, hv, hpc, hr]

@[simp] theorem State.fpOutcome_loadWord : (s.loadWord w).fpOutcome = s.fpOutcome :=
  State.fpOutcome_congr rfl rfl rfl rfl

end Sys2Proof.Machine
end

