-- ==== Sys2Proof/Laws/Step.lean ====
section
/-! SUPPORT. What a fetch, the instruction and a step can do, said once: proofs cite these and do not unfold. -/

namespace Sys2Proof.Machine

variable {s t : State} {d n m : RegNo} {i : Lane} {ins : Instr} {f : Fault} {r : Refusal}

@[simp] theorem exec_sm3tt1b : exec (.sm3tt1b d n m i) s = execSm3tt1b d n m i s := rfl

/-- SM3TT1B completes exactly when it is implemented, its access enabled and its three registers hold values; then it has
written `V[d]` and advanced `pc` (R60, R61). -/
theorem execSm3tt1b_next :
    execSm3tt1b d n m i s = .next t ↔ s.params.haveSM3 = true ∧ s.fpOutcome = .ok ∧ ∃ vm vn vd,
      s.readV m = some vm ∧ s.readV n = some vn ∧ s.readV d = some vd
        ∧ t = (s.writeV d (sm3tt1bResult vd vn vm i)).advance := by
  unfold execSm3tt1b raise
  cases s.params.haveSM3 <;> cases s.fpOutcome <;> cases s.readV m <;> cases s.readV n <;> cases s.readV d <;>
    simp [eq_comm]

/-- SM3TT1B faults as undefined when not implemented, and traps when implemented and not enabled (R69). -/
theorem execSm3tt1b_fault :
    execSm3tt1b d n m i s = .fault f ↔ (s.params.haveSM3 = false ∧ f = .undefined)
      ∨ (s.params.haveSM3 = true ∧ ∃ c, s.fpOutcome = .trap c ∧ f = .fpAdvSIMDTrap c) := by
  unfold execSm3tt1b raise
  cases s.params.haveSM3 <;> cases s.fpOutcome <;> cases s.readV m <;> cases s.readV n <;> cases s.readV d <;>
    simp [eq_comm]

/-- SM3TT1B is refused exactly when it could run but for a register marked `unwritten` (R61). -/
theorem execSm3tt1b_refused :
    execSm3tt1b d n m i s = .refused r ↔ s.params.haveSM3 = true ∧ s.fpOutcome = .ok
      ∧ (s.readV m = none ∨ s.readV n = none ∨ s.readV d = none) ∧ r = .unwrittenRegister := by
  unfold execSm3tt1b raise
  cases s.params.haveSM3 <;> cases s.fpOutcome <;> cases s.readV m <;> cases s.readV n <;> cases s.readV d <;>
    simp [eq_comm]

/-- The fetch gives an instruction exactly when `pc` is aligned and does not wrap and the word there decodes to it. -/
theorem fetch_ok :
    s.fetch = .ok ins ↔ s.pcAligned = true ∧ s.pcWraps = false ∧ ∃ w, s.params.imem.readWord s.pc.toNat = some w
      ∧ decode w = .instr ins := by
  unfold State.fetch
  cases s.pcAligned <;> cases s.pcWraps <;> cases s.params.imem.readWord s.pc.toNat with
  | none => simp
  | some w => cases h : decode w <;> simp [h]

/-- A step completes when the fetched instruction does. -/
theorem step_next : step s = .next t ↔ ∃ ins, s.fetch = .ok ins ∧ exec ins s = .next t := by
  unfold step
  cases s.fetch <;> simp

/-- All that a completed step does: it ran the SM3TT1B whose word is at `pc`, with R60's write and advance, and `pc` did not wrap. -/
theorem step_next_effect (h : step s = .next t) : ∃ w d n m i vm vn vd,
    s.params.imem.readWord s.pc.toNat = some w ∧ decode w = .instr (.sm3tt1b d n m i)
      ∧ s.readV m = some vm ∧ s.readV n = some vn ∧ s.readV d = some vd
      ∧ t = (s.writeV d (sm3tt1bResult vd vn vm i)).advance ∧ t.pc.toNat = s.pc.toNat + 4 := by
  obtain ⟨⟨d, n, m, i⟩, hf, he⟩ := step_next.1 h
  obtain ⟨-, hw, w, hr, hd⟩ := fetch_ok.1 hf
  obtain ⟨-, -, vm, vn, vd, h1, h2, h3, rfl⟩ := execSm3tt1b_next.1 he
  refine ⟨w, d, n, m, i, vm, vn, vd, hr, hd, h1, h2, h3, rfl, ?_⟩
  simp only [State.pcWraps, decide_eq_false_iff_not] at hw
  have h4 : (4 : Addr).toNat = 4 := rfl
  rw [State.advance_pc, State.writeV_pc, BitVec.toNat_add, h4]
  omega

/-- A step faults when the fetched instruction does (R72: a fetch never faults). -/
theorem step_fault : step s = .fault f ↔ ∃ ins, s.fetch = .ok ins ∧ exec ins s = .fault f := by
  unfold step
  cases s.fetch <;> simp

/-- A step is refused by the fetch or by the fetched instruction. -/
theorem step_refused :
    step s = .refused r ↔ s.fetch = .error r ∨ ∃ ins, s.fetch = .ok ins ∧ exec ins s = .refused r := by
  unfold step
  cases s.fetch <;> simp

/-- Any machine's run of one step more, where that step completes, goes on from its next state. -/
theorem run_succ_next (M : Host.Core) (k : Nat) {a b : M.State} (h : M.step a = .next b) : M.run (k + 1) a = M.run k b := by
  simp [Host.Core.run, h]

/-- The same of the PE. -/
theorem core_run_next (k : Nat) (h : step s = .next t) :
    Host.Core.run Sys2Proof.core (k + 1) s = Host.Core.run Sys2Proof.core k t :=
  run_succ_next Sys2Proof.core k h

end Sys2Proof.Machine
end

