-- ==== Sys2Proof/Tests/Slice0.lean ====
section
/-! SUPPORT. Tests of single steps against spec/95_test_vectors.md, and for each statement with hypotheses a concrete state that meets
them. Expected values are the spec's. -/

namespace Sys2Proof.Tests

open Sys2Proof.Machine Sys2Proof.Safety

/-! ### The states -/

/-- A small state: registers 0, 1, 2 as given and all others `unwritten`, a `pc`, a text, HAVE_SM3 and FPCheck. -/
def launch (v0 v1 v2 : VReg) (pc : Addr) (imem : Memory) (have3 : Bool) (fp : FPCheck) : State where
  v := (((Vector.replicate 32 .unwritten).set 0 v0).set 1 v1).set 2 v2
  pc := pc
  rest := State.reset.rest
  params := { haveSM3 := have3, fpCheck := fp, imem := imem, dit := false }

/-- `V[0]`, `V[1]`, `V[2]` of 95_test_vectors.md section 4. -/
def q0 : Quad := 0x0123456789abcdeffedcba9876543210#128
def q1 : Quad := 0xa5a5a5a5000000000000000000000000#128
def q2 : Quad := 0x44444444333333332222222211111111#128

/-- The bytes `20 84 42 CE` of `SM3TT1B V0.4S, V1.4S, V2.S[0]` at an address. -/
def textAt (a : Nat) : Memory := [(a, 0x20), (a + 1, 0x84), (a + 2, 0x42), (a + 3, 0xCE)]

/-- The launch state of section 4. -/
def first : State := launch (.value q0) (.value q1) (.value q2) 0x1000 (textAt 0x1000) true (.always .ok)

/-- What section 4 gives after its step. -/
def firstAfter : State :=
  { first with v := first.v.set 0 (.value 0xa304e6c701234567579bdf13fedcba98#128), pc := 0x1004 }

/-- The reset state with `SM3TT1B V0.4S, V0.4S, V0.S[0]` placed at `pc`. -/
def placed : State := State.reset.withFetchWord 32 0xCE408400

def misaligned : State := { first with pc := 0x1002 }
def atTop : State := { first with pc := 0xFFFFFFFFFFFFFFFC, params := { first.params with imem := textAt 0xFFFFFFFFFFFFFFFC } }
def belowTop : State := { first with pc := 0xFFFFFFFFFFFFFFF8, params := { first.params with imem := textAt 0xFFFFFFFFFFFFFFF8 } }
def noText : State := { first with pc := 0x2000 }
def cutText : State := { first with params := { first.params with imem := (textAt 0x1000).take 3 } }
def otherWord : State := { first with params := { first.params with imem := (textAt 0x1000).set 1 (0x1001, 0x80) } }
def absent : State := { first with params := { first.params with haveSM3 := false } }
def trapped : State := { first with params := { first.params with fpCheck := .always (.trap 7) } }
def without (k : RegNo) : State := { first with v := first.v.set k .unwritten }

/-! ### Well-formedness: an ill-formed term for each check -/

theorem test_illformed_d : (RawInstr.sm3tt1b 32 0 0 0).wf = false ∧ (RawInstr.sm3tt1b 32 0 0 0).toInstr? = none := by decide
theorem test_illformed_n : (RawInstr.sm3tt1b 0 32 0 0).wf = false ∧ (RawInstr.sm3tt1b 0 32 0 0).toInstr? = none := by decide
theorem test_illformed_m : (RawInstr.sm3tt1b 0 0 32 0).wf = false ∧ (RawInstr.sm3tt1b 0 0 32 0).toInstr? = none := by decide
theorem test_illformed_i : (RawInstr.sm3tt1b 0 0 0 4).wf = false ∧ (RawInstr.sm3tt1b 0 0 0 4).toInstr? = none := by decide
theorem test_wellformed_top : (RawInstr.sm3tt1b 31 31 31 3).toInstr? = some (.sm3tt1b 31 31 31 3) := by decide

/-! ### Decoding and encoding (95_test_vectors.md section 2) -/

/-- Written out bit by bit from R48's diagram. -/
theorem test_decode_written_out :
    decode 0b11001110010_00011_10_10_01_00010_00001#32 = .instr (.sm3tt1b 1 2 3 2)
      ∧ decode 0b11001110010_11110_10_01_01_10100_01010#32 = .instr (.sm3tt1b 10 20 30 1) := by decide

theorem test_decode_table_positives :
    decode 0xCE408400#32 = .instr (.sm3tt1b 0 0 0 0) ∧ decode 0xCE5FB7FF#32 = .instr (.sm3tt1b 31 31 31 3)
      ∧ decode 0xCE40841F#32 = .instr (.sm3tt1b 31 0 0 0) ∧ decode 0xCE4087E0#32 = .instr (.sm3tt1b 0 31 0 0)
      ∧ decode 0xCE5F8400#32 = .instr (.sm3tt1b 0 0 31 0) ∧ decode 0xCE42B420#32 = .instr (.sm3tt1b 0 1 2 3) := by decide

theorem test_decode_table_negatives :
    ([0xCE408000#32, 0xCE408C00#32, 0xCE408800#32, 0xCE40C400#32, 0xCE400400#32, 0xCE608400#32, 0xCE008400#32,
      0xCEC08400#32, 0xCF408400#32, 0xCC408400#32, 0xCA408400#32, 0xC6408400#32, 0xDE408400#32, 0xEE408400#32,
      0x8E408400#32, 0x4E408400#32, 0x00000000#32, 0xFFFFFFFF#32, 0x008440CE#32].map decode).all (· = .outOfScope) = true := by decide

theorem test_bytes_lowest_address_first :
    encodeBytes (.sm3tt1b 1 2 3 2) = [0x41, 0xA4, 0x43, 0xCE] ∧ encode (.sm3tt1b 3 4 4 1) = 0xCE449483#32
      ∧ decodeBytes [0x20, 0x84, 0x42, 0xCE, 0x55] = .instr (.sm3tt1b 0 1 2 0) [0x55]
      ∧ decodeBytes [0x20, 0x84, 0x42] = .truncated := by decide

theorem test_table_word : decodeTableWord 32 0xCE43A441 = some (.sm3tt1b 1 2 3 2) ∧ decodeTableWord 32 0xCE408000 = none := by
  decide

theorem test_assembly :
    readInstr "SM3TT1B V1.4S, V2.4S, V3.S[2]".toList = some (.sm3tt1b 1 2 3 2)
      ∧ readInstr "sm3tt1b  v31.4s,v0.4s , v10.s[0]".toList = some (.sm3tt1b 31 0 10 0)
      ∧ readInstr "SM3TT1B V32.4S, V2.4S, V3.S[2]".toList = none
      ∧ readInstr "SM3TT1B V1.4S, V2.4S, V3.S[4]".toList = none
      ∧ readInstr "SM3TT1B V01.4S, V2.4S, V3.S[2]".toList = none
      ∧ readInstr "SM3TT1B V1.4S, V2.4S, V3.4S".toList = none := by decide

/-! ### SM3TT1B -/

/-- Sections 3.2, 3.3, 3.4, 3.5, 3.8, 3.9 and 3.10: old `V[d]`, `V[n]`, `V[m]`, `i` and the new `V[d]`. -/
theorem test_sm3tt1b_vectors :
    sm3tt1bResult 0xffffffffffffffffffffffffffffffff#128 0 0xffffffff000000000000000000000000#128 3
        = 0xfffffffcffffffffffffffffffffffff#128
      ∧ sm3tt1bResult 0 0 0x44444444333333332222222211111111#128 1 = 0x22222222000000000000000000000000#128
      ∧ sm3tt1bResult 0x80000001800000010000000000000000#128 0 0 0 = 0x80001801800000010000030000000000#128
      ∧ sm3tt1bResult 0xf0f0f0f0ccccccccaaaaaaaa00000000#128 0 0 0 = 0xf7f7f7f7f0f0f0f099999999aaaaaaaa#128
      ∧ sm3tt1bResult q0 q0 q0 0 = 0xabc9678401234567579bdf13fedcba98#128
      ∧ sm3tt1bResult 0x34d1691e7c52977892b57849979ab113#128 0x0afa0d0b000000000000000000000000#128 0x9092e200#128 0
        = 0x796afab134d1691ea52ef0f892b57849#128
      ∧ sm3tt1bResult 0xdeadbeef010203040a0b0c0d11223344#128 0x5566778899aabbccddeeff0010203040#128
          0x0f1e2d3c4b5a69788796a5b4c3d2e1f0#128 2 = 0xf510352bdeadbeef040608020a0b0c0d#128 := by decide

/-- Section 4, first row: one step, the whole state; and the instruction alone. -/
theorem test_sm3tt1b_step : step first = .next firstAfter ∧ exec (.sm3tt1b 0 1 2 0) first = .next firstAfter := ⟨rfl, rfl⟩

/-! ### The hypotheses of the statements are met -/

theorem witness_first_enabled : Enabled first ∧ first.pc.toNat + 4 < 2 ^ 64 ∧ first.readV 2 = some q2 ∧ first.readV 1 = some q1 ∧ first.readV 0 = some q0 := by
  unfold Enabled; decide

/-- Section 4's rows as witnesses of every clause of `ChecksRunInOrder`, with the outcome the row gives. -/
theorem witness_misaligned : misaligned.pc.toNat % 4 ≠ 0 ∧ misaligned.pc.extractLsb' 0 2 ≠ 0#2
    ∧ step misaligned = .refused .pcMisaligned := ⟨by decide, by decide, rfl⟩

theorem witness_atTop : atTop.pc.toNat % 4 = 0 ∧ 2 ^ 64 ≤ atTop.pc.toNat + 4 ∧ step atTop = .refused .pcWrap :=
  ⟨by decide, by decide, rfl⟩

theorem witness_belowTop : FetchesWord belowTop 0xCE428420#32 ∧ stateAfter belowTop ≠ belowTop
    ∧ (stateAfter belowTop).pc = 0xFFFFFFFFFFFFFFFC#64 := by unfold FetchesWord; decide

theorem witness_noText : noText.pc.toNat % 4 = 0 ∧ noText.pc.toNat + 4 < 2 ^ 64
    ∧ noText.params.imem.read (noText.pc.toNat + 0) = none ∧ step noText = .refused .noInstructionMemory :=
  ⟨by decide, by decide, by decide, rfl⟩

theorem witness_cutText : cutText.pc.toNat % 4 = 0 ∧ cutText.pc.toNat + 4 < 2 ^ 64
    ∧ cutText.params.imem.read (cutText.pc.toNat + 3) = none ∧ step cutText = .refused .noInstructionMemory :=
  ⟨by decide, by decide, by decide, rfl⟩

theorem witness_otherWord : FetchesWord otherWord 0xCE428020#32 ∧ 0xCE428020#32 &&& sm3tt1bMask ≠ sm3tt1bMatch
    ∧ step otherWord = .refused .outOfScope := ⟨by unfold FetchesWord; decide, by decide, rfl⟩

theorem witness_fetches : FetchesWord first 0xCE428420#32 ∧ decode 0xCE428420#32 = .instr (.sm3tt1b 0 1 2 0)
    ∧ 0xCE428420#32 &&& sm3tt1bMask = sm3tt1bMatch := by unfold FetchesWord; decide

theorem witness_fetch_bytes : first.params.imem.read first.pc.toNat = some 0x20
    ∧ first.params.imem.read (first.pc.toNat + 1) = some 0x84 ∧ first.params.imem.read (first.pc.toNat + 2) = some 0x42
    ∧ first.params.imem.read (first.pc.toNat + 3) = some 0xCE := by decide

theorem witness_absent : FetchesWord absent 0xCE428420#32 ∧ absent.params.haveSM3 = false ∧ step absent = .fault .undefined :=
  ⟨by unfold FetchesWord; decide, rfl, rfl⟩

theorem witness_trapped : FetchesWord trapped 0xCE428420#32 ∧ trapped.params.haveSM3 = true ∧ trapped.fpOutcome = .trap 7
    ∧ step trapped = .fault (.fpAdvSIMDTrap 7) := ⟨by unfold FetchesWord; decide, rfl, rfl, rfl⟩

theorem witness_unwritten_m : FetchesWord (without 2) 0xCE428420#32 ∧ Enabled (without 2) ∧ (without 2).v[2] = .unwritten
    ∧ step (without 2) = .refused .unwrittenRegister :=
  ⟨by unfold FetchesWord; decide, by unfold Enabled; decide, by decide, rfl⟩

theorem witness_unwritten_n : FetchesWord (without 1) 0xCE428420#32 ∧ Enabled (without 1) ∧ (without 1).v[1] = .unwritten
    ∧ step (without 1) = .refused .unwrittenRegister :=
  ⟨by unfold FetchesWord; decide, by unfold Enabled; decide, by decide, rfl⟩

theorem witness_unwritten_d : FetchesWord (without 0) 0xCE428420#32 ∧ Enabled (without 0) ∧ (without 0).v[0] = .unwritten
    ∧ step (without 0) = .refused .unwrittenRegister :=
  ⟨by unfold FetchesWord; decide, by unfold Enabled; decide, by decide, rfl⟩

theorem witness_top_enabled : Enabled atTop ∧ atTop.pc = 0xFFFFFFFFFFFFFFFC#64 ∧ atTop.v[2] = .value q2 ∧ atTop.v[1] = .value q1
    ∧ atTop.v[0] = .value q0 := by
  unfold Enabled; decide

/-- A state that meets the invariant and steps on; the word was placed from outside (log 10). -/
theorem witness_invariant_steps : MachineInv placed ∧ step placed = .next (placed.writeV 0 0).advance :=
  ⟨by unfold MachineInv; decide, rfl⟩

theorem witness_placed : State.reset.pc.toNat % 4 = 0 ∧ State.reset.pc.toNat + 4 < 2 ^ 64
    ∧ decodeTableWord 32 0xCE408400 = some (.sm3tt1b 0 0 0 0) ∧ State.reset.params.imem.wf = true := by decide

theorem witness_canonical : Memory.wf [(0, 1), (4, 2)] = true ∧ Memory.wf [(4, 2), (0, 1)] = false
    ∧ Memory.insert (Memory.insert [] 4 2) 0 1 = [(0, 1), (4, 2)] := by decide

theorem witness_fixed_bits : sm3tt1bMask.getLsbD 10 = true ∧ sm3tt1bMask.getLsbD 31 = true ∧ sm3tt1bMask.getLsbD 12 = false := by
  decide

theorem witness_example_register : ∃ s : State, Enabled s ∧ s.pc.toNat + 4 < 2 ^ 64 ∧ s.v[3] = .value 0x00000001000000020000000300000004#128 :=
  ⟨first.writeV 3 0x00000001000000020000000300000004#128, by unfold Enabled; decide, by decide, by decide⟩

theorem witness_zero_registers : Enabled State.reset ∧ State.reset.pc.toNat + 4 < 2 ^ 64 ∧ State.reset.v[0] = .value 0 ∧ State.reset.v[31] = .value 0 := by
  unfold Enabled; decide

/-- Another state with the same used elements of `V[1]` and `V[2]` and the same `V[0]`, all else different. -/
theorem witness_other_elements : ∃ s' : State, Enabled s' ∧ s'.readV 2 = some 0x11111111#128
    ∧ s'.readV 1 = some 0xa5a5a5a5000000000000000000000001#128 ∧ s'.readV 0 = some q0
    ∧ elem 0x11111111#128 0 = elem q2 0 ∧ elem 0xa5a5a5a5000000000000000000000001#128 3 = elem q1 3 :=
  ⟨launch (.value q0) (.value 0xa5a5a5a5000000000000000000000001#128) (.value 0x11111111#128) 0x40 [] true (.always .ok),
    by unfold Enabled; decide, by decide, by decide, by decide, by decide, by decide⟩

theorem witness_agreeing_states : Enabled first ∧ Enabled noText
    ∧ ∀ k ∈ readsOf (.sm3tt1b 0 1 2 0), first.v[k] = noText.v[k] ∧ first.v[k] ≠ .unwritten := by
  unfold Enabled; decide

/-- A fixed FPCheck depends on `rest` alone. -/
theorem witness_fpCheck (o : FPOutcome) : FPCheckReadsRestOnly (.always o) := by
  intro s t hs ht _
  simp [State.fpOutcome, hs, ht]

/-- All hypotheses of `EnabledStaysEnabled` together. -/
theorem witness_enabled_step : FPCheckReadsRestOnly first.params.fpCheck ∧ Enabled first ∧ step first = .next firstAfter :=
  ⟨witness_fpCheck .ok, by unfold Enabled; decide, rfl⟩

/-- All hypotheses of `NextInstructionSeesTheNewValue` together, at `SM3TT1B V0, V1, V2[0]` then `SM3TT1B V1, V2, V0[3]`: the
second reads in `m`'s place the register the first wrote. -/
theorem witness_next_instruction : Enabled first
    ∧ (∀ t, exec (.sm3tt1b 0 1 2 0) first = .next t → t.fpOutcome = .ok) ∧ first.pc.toNat + 8 < 2 ^ 64
    ∧ first.readV 2 = some q2 ∧ first.readV 1 = some q1 ∧ first.readV 0 = some q0
    ∧ (if (0 : RegNo) = 0 then sm3tt1bResult q0 q1 q2 0 = sm3tt1bResult q0 q1 q2 0
        else first.readV 0 = some (sm3tt1bResult q0 q1 q2 0))
    ∧ (if (2 : RegNo) = 0 then q2 = sm3tt1bResult q0 q1 q2 0 else first.readV 2 = some q2)
    ∧ (if (1 : RegNo) = 0 then q1 = sm3tt1bResult q0 q1 q2 0 else first.readV 1 = some q1) :=
  ⟨by unfold Enabled; decide, fun t h => by cases h; rfl, by decide, by decide, by decide, by decide, by decide, by decide,
    by decide⟩

/-- A run of one step passes through its launch state alone before the end address. -/
theorem enabledThroughout_one {s : State} (h : Enabled s) : EnabledThroughout s 1 := by
  refine ⟨h, fun j t hj hr => ?_⟩
  obtain rfl : j = 0 := by omega
  cases hr
  exact h.2

/-- The end addresses of the runs below: multiples of 4 (R87), the lowest there is among them. -/
def end1004 : EndAddr := ⟨0x1004, by decide⟩
def end0 : EndAddr := ⟨0, by decide⟩

theorem witness_launchReady : LaunchReady first [.sm3tt1b 0 1 2 0] ∧ end1004.addr.toNat = first.pc.toNat + 4 * 1 :=
  ⟨⟨enabledThroughout_one (by unfold Enabled; decide), by decide, by decide, ⟨by decide, trivial⟩, by decide⟩, by decide⟩

/-- P1's first instruction twice, with registers enough for both: a run of two steps, through a state between. -/
def twice : State := { first with params := { first.params with imem := textAt 0x1000 ++ textAt 0x1004 } }

theorem witness_launchReady_twice : LaunchReady twice [.sm3tt1b 0 1 2 0, .sm3tt1b 0 1 2 0] := by
  refine ⟨⟨by unfold Enabled; decide, fun j t hj hr => ?_⟩, by decide, by decide, ⟨by decide, by decide, trivial⟩, by decide⟩
  simp only [List.length_cons, List.length_nil] at hj
  interval_cases j <;> cases hr <;> rfl

/-- The same launch with PSTATE.DIT 1, and again with other data in `V[0]` and other flags. -/
def timed : State := { first with params := { first.params with dit := true } }
def timedOther : State := { timed with v := timed.v.set 0 (.value 5), rest := { timed.rest with nzcv := ⟨true, true, true, true⟩ } }

theorem witness_timing : TimingPromise (fun _ s => s.pc.toNat) ∧ LaunchReady timed [.sm3tt1b 0 1 2 0]
    ∧ LaunchReady timedOther [.sm3tt1b 0 1 2 0] ∧ timed.params.dit = true ∧ DifferInDataOnly timed timedOther :=
  ⟨fun _ _ _ _ h => congrArg BitVec.toNat h.1,
    ⟨enabledThroughout_one (by unfold Enabled; decide), by decide, by decide, ⟨by decide, trivial⟩, by decide⟩,
    ⟨enabledThroughout_one (by unfold Enabled; decide), by decide, by decide, ⟨by decide, trivial⟩, by decide⟩,
    rfl, by unfold DifferInDataOnly; decide⟩

/-- The promise can fail: a time that depends on the flags breaks it. -/
theorem test_timingPromise_can_fail : ¬ TimingPromise (fun _ s => s.nzcv.n.toNat) := fun h =>
  absurd (h (.sm3tt1b 0 1 2 0) timed timedOther rfl (by unfold DifferInDataOnly; decide)) (by decide)

/-- Runs of section 5: P1's first step alone is complete at its END; with the feature absent it faults and the state stays (P4). -/
theorem witness_runs : runTo end1004 1 first = .complete firstAfter ∧ absent.pc ≠ end1004.addr
    ∧ runTo end1004 1 absent = .faulted .undefined absent ∧ noText.pc ≠ end1004.addr
    ∧ runTo end1004 1 noText = .refused .noInstructionMemory noText
    ∧ runTo end0 3 first = .refused .noInstructionMemory firstAfter ∧ runTo end0 0 State.reset = .complete State.reset := by
  decide

end Sys2Proof.Tests
end

section
/-! SUPPORT. Proofs: what a failed fetch can be, and from where a refusal comes, what a register write leaves, and a run that stops
at once. -/

namespace Sys2Proof.Proofs

open Sys2Proof.Machine Sys2Proof.Safety

variable {s t : State} {w : Word} {i : Instr} {r : Refusal}

/-- Checks 1 to 3 of R74, in the spelling of `State.fetch`. -/
theorem fetchesWord_iff :
    FetchesWord s w ↔ s.pcAligned = true ∧ s.pcWraps = false ∧ s.params.imem.readWord s.pc.toNat = some w := by
  simp only [FetchesWord, State.pcAligned, State.pcWraps, beq_iff_eq, decide_eq_false_iff_not, Nat.not_le]

/-- The four ways a fetch fails, each with its cause (checks 1 to 4 of R74); the partner of `fetch_ok`. -/
theorem fetch_error :
    s.fetch = .error r ↔ (s.pcAligned = false ∧ r = .pcMisaligned)
      ∨ (s.pcAligned = true ∧ s.pcWraps = true ∧ r = .pcWrap)
      ∨ (s.pcAligned = true ∧ s.pcWraps = false ∧ s.params.imem.readWord s.pc.toNat = none ∧ r = .noInstructionMemory)
      ∨ ∃ w, FetchesWord s w ∧ decode w = .outOfScope ∧ r = .outOfScope := by
  simp only [fetchesWord_iff]
  unfold State.fetch
  cases s.pcAligned <;> cases s.pcWraps <;> cases s.params.imem.readWord s.pc.toNat with
  | none => simp [eq_comm]
  | some w => cases h : decode w <;> simp [h, eq_comm]

/-- No word can be fetched exactly when the fetch itself is refused by one of its first three checks. -/
theorem not_fetchesWord_iff_fetch_error :
    (¬ ∃ w, FetchesWord s w) ↔
      s.fetch = .error .pcMisaligned ∨ s.fetch = .error .pcWrap ∨ s.fetch = .error .noInstructionMemory := by
  simp only [fetch_error, fetchesWord_iff]
  cases s.pcAligned <;> cases s.pcWraps <;> simp [Option.eq_none_iff_forall_ne_some]

/-- An instruction refuses for one reason only (R61). -/
theorem exec_refused_eq (h : exec i s = .refused r) : r = .unwrittenRegister := by
  cases i
  obtain ⟨-, -, -, hr⟩ := execSm3tt1b_refused.1 h
  exact hr

/-- Every refusal but that of an `unwritten` register is the fetch's. -/
theorem step_refused_iff_fetch_error (hr : r ≠ .unwrittenRegister) : step s = .refused r ↔ s.fetch = .error r := by
  rw [step_refused]
  exact or_iff_left fun ⟨_, _, he⟩ => hr (exec_refused_eq he)

/-- Every instruction of the model has a meaning. -/
theorem step_ne_notModelled (s : State) (name : String) : step s ≠ .refused (.notModelled name) := by
  simp [step_refused_iff_fetch_error, fetch_error]

/-- A register write keeps the content of every other register, its value or its mark (R17, R21). -/
theorem writeV_getElem_of_ne {k j : RegNo} {q : Quad} (h : j ≠ k) : (s.writeV k q).v[j] = s.v[j] := by
  simp [Fin.val_ne_of_ne h.symm]

/-- A run whose first step faults or is refused is not complete (R18, R87). -/
theorem runTo_ne_complete_of_step_stops {stop : EndAddr} (k : Nat) (hpc : s.pc ≠ stop.addr)
    (hstop : ∀ u, step s ≠ .next u) : runTo stop k s ≠ .complete t := by
  cases k with
  | zero => simp [runTo, hpc]
  | succ k =>
    cases h : step s with
    | next u => exact absurd h (hstop u)
    | fault f => simp [runTo, hpc, h]
    | refused r => simp [runTo, hpc, h]

end Sys2Proof.Proofs
end

section
/-! SUPPORT. Proofs of the statements of `00_scope.md`. -/

namespace Sys2Proof.Proofs

open Sys2Proof.Machine Sys2Proof.Safety

/-- Settles O20: by the constructors of the outcome, its faults and its refusals; the model's `notModelled` is never answered, and
the three refusals of a failed fetch come from nowhere else. -/
theorem stepHasOnlyTheNamedOutcomes : Obligations.StepHasOnlyTheNamedOutcomes := by
  refine ⟨fun s => ?_, fun s t stop k => runTo_ne_complete_of_step_stops k, fun s => ?_⟩
  · cases h : step s with
    | next t => simp
    | fault f => cases f <;> simp
    | refused r =>
      cases r with
      | notModelled name => exact absurd h (step_ne_notModelled s name)
      | pcMisaligned | pcWrap | noInstructionMemory | outOfScope | unwrittenRegister => simp
  · rw [not_fetchesWord_iff_fetch_error, step_refused_iff_fetch_error (by decide),
      step_refused_iff_fetch_error (by decide), step_refused_iff_fetch_error (by decide)]

/-- Settles O25, from the laws of a register write. -/
theorem registerWriteReadsBack : Obligations.RegisterWriteReadsBack := by
  intro s k q
  have hread : (s.writeV k q).readV k = some q := by simp
  exact ⟨hread, (State.readV_eq_some _ _ _).1 hread, fun _ hj => writeV_getElem_of_ne hj, rfl, rfl, rfl⟩

end Sys2Proof.Proofs
end

section
/-! SUPPORT. Proofs: what canonical memories that read alike share, the elements of a register value, what a completed instruction
and a stopped step leave, and PSTATE.DIT set to another value. -/

namespace Sys2Proof.Proofs

open Sys2Proof.Machine Sys2Proof.Safety

/-! ### Memory (log 9) -/

/-- The canonical form of a memory with a first cell: its address is in range and the cells after it lie above. -/
theorem wfFrom_cons {lo : Nat} {c : Host.Cell} {m : Memory} :
    Memory.wfFrom lo (c :: m) = true ↔ lo ≤ c.1 ∧ c.1 < 2 ^ 64 ∧ m.wfFrom (c.1 + 1) = true := by
  simp [Memory.wfFrom, and_assoc]

/-- A canonical memory has no byte below its first cell. -/
theorem read_cons_eq_none_of_lt {lo a : Nat} {c : Host.Cell} {m : Memory} (h : Memory.wfFrom lo (c :: m) = true)
    (ha : a < c.1) : Memory.read (c :: m) a = none := by
  obtain ⟨-, hc, hm⟩ := wfFrom_cons.1 h
  exact Memory.read_lt_of_wfFrom (wfFrom_cons.2 ⟨le_rfl, hc, hm⟩) ha

/-- A memory has the byte of its first cell. -/
theorem read_cons_self (c : Host.Cell) (m : Memory) : Memory.read (c :: m) c.1 = some c.2 := by
  simp

/-- The first address of a canonical memory is not below that of another that reads alike. -/
theorem first_address_le_of_read_eq {lo : Nat} {c c' : Host.Cell} {m m' : Memory}
    (h' : Memory.wfFrom lo (c' :: m') = true) (hr : ∀ a, Memory.read (c :: m) a = Memory.read (c' :: m') a) :
    c'.1 ≤ c.1 := by
  by_contra hlt
  have hnone := read_cons_eq_none_of_lt h' (Nat.not_le.1 hlt)
  rw [← hr, read_cons_self] at hnone
  cases hnone

/-- Canonical memories above the same address that read alike are equal: they have the same first cell, and what follows it
reads alike too. -/
theorem eq_of_wfFrom_of_read_eq {lo : Nat} {m m' : Memory} (h : m.wfFrom lo = true) (h' : m'.wfFrom lo = true)
    (hr : ∀ a, m.read a = m'.read a) : m = m' := by
  induction m generalizing lo m' with
  | nil =>
    cases m' with
    | nil => rfl
    | cons c' m' => simpa using hr c'.1
  | cons c m ih =>
    cases m' with
    | nil => simpa using hr c.1
    | cons c' m' =>
      have haddr : c.1 = c'.1 :=
        le_antisymm (first_address_le_of_read_eq h fun a => (hr a).symm) (first_address_le_of_read_eq h' hr)
      have hcell : c = c' := by
        have hbyte := hr c.1
        rw [read_cons_self, haddr, read_cons_self] at hbyte
        exact Prod.ext haddr (Option.some.inj hbyte)
      subst hcell
      obtain ⟨-, -, hm⟩ := wfFrom_cons.1 h
      obtain ⟨-, -, hm'⟩ := wfFrom_cons.1 h'
      have htail : ∀ a, Memory.read m a = Memory.read m' a := by
        intro a
        by_cases ha : c.1 = a
        · subst ha
          rw [Memory.read_lt_of_wfFrom hm (Nat.lt_succ_self _), Memory.read_lt_of_wfFrom hm' (Nat.lt_succ_self _)]
        · simpa [ha] using hr a
      rw [ih hm hm' htail]

/-! ### Elements (R22) -/

/-- Bit `j` of element `e` is bit `32 e + j` of the value. -/
theorem getLsbD_elem (q : Quad) (e : Lane) {j : Nat} (hj : j < 32) :
    (elem q e).getLsbD j = q.getLsbD (32 * e.val + j) := by
  simp [elem, hj]

/-- The elements of a value made of four elements are those. -/
theorem elem_ofElems (e3 e2 e1 e0 : Word) :
    elem (ofElems e3 e2 e1 e0) 3 = e3 ∧ elem (ofElems e3 e2 e1 e0) 2 = e2
      ∧ elem (ofElems e3 e2 e1 e0) 1 = e1 ∧ elem (ofElems e3 e2 e1 e0) 0 = e0 := by
  unfold ofElems elem
  refine ⟨?_, ?_, ?_, BitVec.extractLsb'_append_eq_right⟩
  · rw [BitVec.extractLsb'_append_eq_of_le (by decide), BitVec.extractLsb'_append_eq_of_le (by decide)]
    exact BitVec.extractLsb'_append_eq_left
  · rw [BitVec.extractLsb'_append_eq_of_le (by decide), BitVec.extractLsb'_append_eq_of_le (by decide)]
    exact BitVec.extractLsb'_append_eq_right
  · rw [BitVec.extractLsb'_append_eq_of_le (by decide)]
    exact BitVec.extractLsb'_append_eq_right

/-- A value is its four elements set side by side: slices that meet join to one. -/
theorem ofElems_elem (q : Quad) : ofElems (elem q 3) (elem q 2) (elem q 1) (elem q 0) = q := by
  unfold ofElems elem
  rw [BitVec.extractLsb'_append_extractLsb'_eq_extractLsb' (by decide),
    BitVec.extractLsb'_append_extractLsb'_eq_extractLsb' (by decide),
    BitVec.extractLsb'_append_extractLsb'_eq_extractLsb' (by decide)]
  exact BitVec.extractLsb'_eq_self

/-! ### The frame (R33, R76) -/

variable {s s' t : State} {i : Instr} {f : Fault} {r : Refusal}

/-- Where `pc + 4` is inside the address space, the advance adds 4 to `pc` as a number (R62). -/
theorem advance_pc_toNat (h : s.pc.toNat + 4 < 2 ^ 64) : s.advance.pc.toNat = s.pc.toNat + 4 := by
  rw [State.advance_pc, BitVec.toNat_add]
  exact Nat.mod_eq_of_lt h

/-- A completed step is one register write and the advance of `pc` (R33). -/
theorem step_next_eq_writeV_advance (h : step s = .next t) : ∃ k q, t = (s.writeV k q).advance := by
  obtain ⟨-, d, n, m, i, vm, vn, vd, -, -, -, -, -, rfl, -⟩ := step_next_effect h
  exact ⟨d, _, rfl⟩

/-- A step that stops leaves the state (R76). -/
theorem stateAfter_eq_self (h : ∀ t, step s ≠ .next t) : stateAfter s = s := by
  unfold stateAfter
  cases hs : step s with
  | next t => exact absurd hs (h t)
  | fault f => rfl
  | refused r => rfl

/-- Two register files with the same content of a register, not the mark, read the same value there. -/
theorem exists_readV_of_agree {k : RegNo} (h : s.v[k] = s'.v[k]) (hw : s.v[k] ≠ .unwritten) :
    ∃ q, s.readV k = some q ∧ s'.readV k = some q := by
  simp only [State.readV_eq_some, ← h, and_self]
  cases hk : s.v[k] with
  | value q => exact ⟨q, rfl⟩
  | unwritten => exact absurd hk hw

/-! ### PSTATE.DIT (R28) -/

/-- The state with PSTATE.DIT set to `b`. -/
def setDit (s : State) (b : Bool) : State := { s with params := { s.params with dit := b } }

variable {b : Bool}

@[simp] theorem setDit_haveSM3 : (setDit s b).params.haveSM3 = s.params.haveSM3 := rfl
@[simp] theorem readV_setDit (k : RegNo) : (setDit s b).readV k = s.readV k := rfl
@[simp] theorem fetch_setDit : (setDit s b).fetch = s.fetch := rfl

@[simp] theorem fpOutcome_setDit : (setDit s b).fpOutcome = s.fpOutcome :=
  State.fpOutcome_congr rfl rfl rfl rfl

/-- Where an instruction completes, it completes under any PSTATE.DIT, with a next state that differs in DIT alone. -/
theorem exec_setDit_next (h : exec i s = .next t) : exec i (setDit s b) = .next (setDit t b) := by
  cases i
  obtain ⟨hf, hfp, vm, vn, vd, hm, hn, hd, rfl⟩ := execSm3tt1b_next.1 h
  exact execSm3tt1b_next.2 ⟨hf, by simpa using hfp, vm, vn, vd, hm, hn, hd, rfl⟩

/-- An instruction faults alike under any PSTATE.DIT. -/
@[simp] theorem exec_setDit_fault : exec i (setDit s b) = .fault f ↔ exec i s = .fault f := by
  cases i
  simp [execSm3tt1b_fault]

/-- An instruction is refused alike under any PSTATE.DIT. -/
@[simp] theorem exec_setDit_refused : exec i (setDit s b) = .refused r ↔ exec i s = .refused r := by
  cases i
  simp [execSm3tt1b_refused]

end Sys2Proof.Proofs
end

section
/-! SUPPORT. Proofs of the statements of `10_state.md`. -/

namespace Sys2Proof.Proofs

open Sys2Proof.Machine Sys2Proof.Safety

/-- Settles O5: a completed step is a register write and an advance of `pc`, and neither touches `rest` or the parameters. -/
theorem stepKeepsRestAndParameters : Obligations.StepKeepsRestAndParameters := by
  intro s t h
  obtain ⟨k, q, rfl⟩ := step_next_eq_writeV_advance h
  exact ⟨fun _ => rfl, rfl, fun _ => rfl, rfl, rfl, rfl, rfl⟩

/-- Settles O6, by induction on the cells from the lowest address up. -/
theorem canonicalMemoriesThatReadAlikeAreEqual : Obligations.CanonicalMemoriesThatReadAlikeAreEqual :=
  fun _ _ => eq_of_wfFrom_of_read_eq

/-- Settles O26: bit by bit for the slices, slice by slice for the joining. -/
theorem elementsAreTheFourSlices : Obligations.ElementsAreTheFourSlices := by
  refine fun q => ⟨fun j hj => ⟨?_, getLsbD_elem q 1 hj, getLsbD_elem q 2 hj, getLsbD_elem q 3 hj⟩, ofElems_elem q,
    elem_ofElems⟩
  simpa using getLsbD_elem q 0 hj

/-- Settles O29, from what a completed SM3TT1B is (`execSm3tt1b_next`) and the laws of the register write and the advance. -/
theorem completedInstructionFrame : Obligations.CompletedInstructionFrame := by
  refine ⟨fun d n m i s t h => ?_, fun s => stateAfter_eq_self⟩
  obtain ⟨-, -, vm, vn, vd, hm, hn, hd, rfl⟩ := execSm3tt1b_next.1 h
  simp only [State.readV_eq_some] at hm hn hd
  exact ⟨fun _ hk => writeV_getElem_of_ne hk, ⟨vm, vn, vd, hm, hn, hd, by simp⟩, advance_pc_toNat, rfl, rfl, rfl,
    fun _ => rfl⟩

/-- Settles O34: both states complete with the result of the same three values. -/
theorem resultDependsOnOperandsAlone : Obligations.ResultDependsOnOperandsAlone := by
  intro d n m i s s' hs hs' h
  simp only [readsOf, List.forall_mem_cons] at h
  obtain ⟨⟨hm, hmw⟩, ⟨hn, hnw⟩, ⟨hd, hdw⟩, -⟩ := h
  obtain ⟨vm, hm, hm'⟩ := exists_readV_of_agree hm hmw
  obtain ⟨vn, hn, hn'⟩ := exists_readV_of_agree hn hnw
  obtain ⟨vd, hd, hd'⟩ := exists_readV_of_agree hd hdw
  exact ⟨_, _, execSm3tt1b_next.2 ⟨hs.1, hs.2, vm, vn, vd, hm, hn, hd, rfl⟩,
    execSm3tt1b_next.2 ⟨hs'.1, hs'.2, vm, vn, vd, hm', hn', hd', rfl⟩, by simp⟩

/-- Settles O35: neither the fetch nor an instruction reads DIT, and the enable check does not either (log 2). -/
theorem ditChangesNoOutcome : Obligations.DitChangesNoOutcome := by
  intro s b
  change (∀ t, step s = .next t → step (setDit s b) = .next (setDit t b))
    ∧ (∀ f, step s = .fault f → step (setDit s b) = .fault f)
    ∧ (∀ r, step s = .refused r → step (setDit s b) = .refused r)
  refine ⟨fun t h => ?_, fun f h => ?_, fun r h => ?_⟩
  · obtain ⟨i, hf, he⟩ := step_next.1 h
    exact step_next.2 ⟨i, hf, exec_setDit_next he⟩
  · simpa [step_fault] using h
  · simpa [step_refused] using h

end Sys2Proof.Proofs
end

section
/-! SUPPORT. Proofs: the alignment of `pc` in its two spellings, a fetch's missing byte, the step of a fetched word, what a completed
step keeps, and what the text reads after bytes are placed in it. -/

namespace Sys2Proof.Proofs

open Sys2Proof.Machine Sys2Proof.Safety

variable {s t : State} {m : Memory} {a : Addr} {w : Word} {i : Instr}

/-! ### The program counter (R38) -/

/-- `pc` is aligned exactly when it is a multiple of 4 as a number. -/
theorem pcAligned_iff_mod : s.pcAligned = true ↔ s.pc.toNat % 4 = 0 := by
  simp [State.pcAligned]

/-- `pc` is aligned exactly when its two low bits are 00. -/
theorem pcAligned_iff_low_bits : s.pcAligned = true ↔ s.pc.extractLsb' 0 2 = 0#2 := by
  rw [pcAligned_iff_mod, ← BitVec.toNat_inj]
  simp

/-- A completed step adds 4 to `pc` as a number (R62). -/
theorem pc_toNat_of_step_next (h : step s = .next t) : t.pc.toNat = s.pc.toNat + 4 := by
  obtain ⟨-, -, -, -, -, -, -, -, -, -, -, -, -, -, hpc⟩ := step_next_effect h
  exact hpc

/-- A step completes only from an aligned `pc`, and 4 more is aligned again. -/
theorem pcAligned_of_step_next (h : step s = .next t) : t.pcAligned = true := by
  obtain ⟨_, hf, -⟩ := step_next.1 h
  obtain ⟨haligned, -⟩ := fetch_ok.1 hf
  have hpc := pc_toNat_of_step_next h
  rw [pcAligned_iff_mod] at haligned ⊢
  omega

/-! ### Fetch and step (R36, R74) -/

/-- One of the four bytes of a word is missing exactly when no word is read. -/
theorem exists_missing_byte_iff {a : Nat} : (∃ k < 4, m.read (a + k) = none) ↔ m.readWord a = none := by
  simp only [Memory.readWord_eq_none, Nat.exists_lt_succ_right, Nat.not_lt_zero, false_and, exists_false, false_or, or_assoc,
    Nat.add_zero]

/-- Where the fetched word decodes to an instruction, the step is that instruction's meaning. -/
theorem step_eq_exec_of_fetchesWord (hw : FetchesWord s w) (hd : decode w = .instr i) : step s = exec i s := by
  obtain ⟨haligned, hwraps, hread⟩ := fetchesWord_iff.1 hw
  have hfetch : s.fetch = .ok i := fetch_ok.2 ⟨haligned, hwraps, w, hread, hd⟩
  rw [step, hfetch]

/-- A completed step takes no register's value away: it writes one and leaves the others (R64). -/
theorem isSome_readV_of_step_next (h : step s = .next t) {j : RegNo} (hj : (s.readV j).isSome = true) :
    (t.readV j).isSome = true := by
  obtain ⟨k, q, rfl⟩ := step_next_eq_writeV_advance h
  rw [State.readV_advance, State.readV_writeV]
  split
  · rfl
  · exact hj

/-! ### Text placed from outside (log 10) -/

/-- The address after one below the top of the address space, as a number. -/
theorem toNat_addr_add_one (h : a.toNat + 1 < 2 ^ 64) : (a + 1).toNat = a.toNat + 1 :=
  BitVec.toNat_add_of_lt h

/-- Bytes placed below the top of the address space leave every address outside their own as it was. -/
theorem read_writeBytes_of_outside {bs : List Byte} (htop : a.toNat + bs.length < 2 ^ 64) {a' : Nat}
    (h : a' < a.toNat ∨ a.toNat + bs.length ≤ a') : (m.writeBytes a bs).read a' = m.read a' := by
  induction bs generalizing m a with
  | nil => rfl
  | cons b bs ih =>
    rw [List.length_cons] at htop h
    have hnext := toNat_addr_add_one (a := a) (by omega)
    rw [Memory.writeBytes, ih (by omega) (by omega), Memory.read_write, if_neg (by omega)]

/-- Bytes placed below the top of the address space are read back, one after the other. -/
theorem read_writeBytes_of_lt_length {bs : List Byte} (htop : a.toNat + bs.length < 2 ^ 64) {k : Nat}
    (hk : k < bs.length) : (m.writeBytes a bs).read (a.toNat + k) = some bs[k] := by
  induction bs generalizing m a k with
  | nil => cases hk
  | cons b bs ih =>
    rw [List.length_cons] at htop hk
    have hnext := toNat_addr_add_one (a := a) (by omega)
    rw [Memory.writeBytes]
    cases k with
    | zero => rw [read_writeBytes_of_outside (by omega) (by omega), Nat.add_zero, Memory.read_write, if_pos rfl, List.getElem_cons_zero]
    | succ k =>
      rw [List.getElem_cons_succ, ← ih (a := a + 1) (by omega) (Nat.lt_of_succ_lt_succ hk), hnext]
      congr 1
      omega

/-- A word placed as its four bytes is read back as that word (R36, R37). -/
theorem readWord_writeBytes_wordBytes (htop : a.toNat + 4 < 2 ^ 64) :
    (m.writeBytes a (wordBytes w)).readWord a.toNat = some w := by
  have hbyte (k : Nat) (hk : k < 4) : (m.writeBytes a (wordBytes w)).read (a.toNat + k) = some (wordBytes w)[k] :=
    read_writeBytes_of_lt_length htop hk
  exact Memory.readWord_eq_some.2 ⟨_, _, _, _, hbyte 0 (by decide), hbyte 1 (by decide), hbyte 2 (by decide),
    hbyte 3 (by decide), (wordLE_wordBytes w).symm⟩

/-- The word placed at `pc` is the word the fetch gives. -/
theorem fetchesWord_loadWord (haligned : s.pc.toNat % 4 = 0) (htop : s.pc.toNat + 4 < 2 ^ 64) :
    FetchesWord (s.loadWord w) w :=
  ⟨haligned, htop, readWord_writeBytes_wordBytes htop⟩

/-- The opcode table's bits stand for the instruction that their word decodes to. -/
theorem decodeTableWord_eq_some {nbits u : Nat} :
    decodeTableWord nbits u = some i ↔ decode (tableWord nbits u) = .instr i := by
  unfold decodeTableWord
  simp only [wordBytes, decodeBytes, wordLE_wordBytes]
  cases decode (tableWord nbits u) <;> simp

end Sys2Proof.Proofs
end

section
/-! SUPPORT. Proofs of the statements of `20_memory.md`. -/

namespace Sys2Proof.Proofs

open Sys2Proof.Machine Sys2Proof.Safety

/-- Settles O3, part by part: no step changes the parameters (O5), `pc` advances by 4, and a register write only adds a value. -/
theorem stepKeepsInvariant : Obligations.StepKeepsInvariant := by
  rintro s t ⟨hwf, -, hvalued⟩ h
  obtain ⟨-, hparams, -⟩ := stepKeepsRestAndParameters s t h
  exact ⟨hparams ▸ hwf, pcAligned_of_step_next h, fun k => isSome_readV_of_step_next h (hvalued k)⟩

/-- Settles O16, from what reading a word says, and from the fetch's third check. -/
theorem fetchReadsFourBytesLittleEndian : Obligations.FetchReadsFourBytesLittleEndian := by
  intro s haligned htop
  refine ⟨fun b0 b1 b2 b3 h0 h1 h2 h3 =>
    ⟨haligned, htop, Memory.readWord_eq_some.2 ⟨b0, b1, b2, b3, h0, h1, h2, h3, rfl⟩⟩, fun hmissing => ?_⟩
  have hwraps : s.pcWraps = false := decide_eq_false (Nat.not_le.2 htop)
  rw [step_refused_iff_fetch_error (by decide), fetch_error]
  exact .inr (.inr (.inl ⟨pcAligned_iff_mod.2 haligned, hwraps, exists_missing_byte_iff.1 hmissing, rfl⟩))

/-- Settles O17: the fetch checks alignment first, and a completed step keeps it. -/
theorem misalignedPcIsRefused : Obligations.MisalignedPcIsRefused := by
  refine ⟨fun s hlow => ?_, fun s t h => pcAligned_iff_low_bits.1 (pcAligned_of_step_next h)⟩
  have hmisaligned : s.pcAligned = false := Bool.eq_false_iff.2 (mt pcAligned_iff_low_bits.1 hlow)
  rw [step_refused_iff_fetch_error (by decide), fetch_error]
  exact .inl ⟨hmisaligned, rfl⟩

/-- Settles O24: the four bytes placed at `pc` are the word fetched there, and placing them leaves the other bytes and the
canonical form. -/
theorem placedWordIsTheOneThatRuns : Obligations.PlacedWordIsTheOneThatRuns := by
  intro s w i haligned htop hd
  rw [State.withFetchWord_eq]
  exact ⟨step_eq_exec_of_fetchesWord (fetchesWord_loadWord haligned htop) (decodeTableWord_eq_some.1 hd),
    fun _ ha => read_writeBytes_of_outside (bs := wordBytes (tableWord 32 w)) htop ha, Memory.wf_writeBytes _ _⟩

/-- Settles O15, from the four checks of a fetch that succeeds. -/
theorem stepRunsTheDecodedInstruction : Obligations.StepRunsTheDecodedInstruction :=
  fun _ _ _ => step_eq_exec_of_fetchesWord

end Sys2Proof.Proofs
end

section
/-! SUPPORT. Proofs: a word as the seven slices of the encoding diagram, the words that match, and decode against encode. -/

namespace Sys2Proof.Proofs

open Sys2Proof.Machine Sys2Proof.Safety

variable {s : State} {w : Word} {i : Instr}

/-! ### The seven slices of a word (R48) -/

/-- The word with these slices, in the order of R48's diagram: the fixed bits `f31`, `f15` and `f11` (named after their top
bit) and the fields `Rm`, `imm2`, `Rn` and `Rd`. -/
def diagram (f31 : BitVec 11) (rm : BitVec 5) (f15 imm2 f11 : BitVec 2) (rn rd : BitVec 5) : Word :=
  f31 ++ rm ++ f15 ++ imm2 ++ f11 ++ rn ++ rd

/-- Every word is its seven slices set side by side: slices that meet join to one. -/
theorem diagram_extractLsb' (w : Word) :
    diagram (w.extractLsb' 21 11) (w.extractLsb' 16 5) (w.extractLsb' 14 2) (w.extractLsb' 12 2) (w.extractLsb' 10 2)
      (w.extractLsb' 5 5) (w.extractLsb' 0 5) = w := by
  unfold diagram
  simp only [BitVec.extractLsb'_append_extractLsb'_eq_extractLsb']
  exact BitVec.extractLsb'_eq_self

/-- Equal joins have equal parts. -/
theorem append_inj_iff {j k : Nat} {x x' : BitVec j} {y y' : BitVec k} : x ++ y = x' ++ y' ↔ x = x' ∧ y = y' := by
  refine ⟨fun h => ⟨?_, ?_⟩, fun ⟨hx, hy⟩ => by rw [hx, hy]⟩
  · simpa [BitVec.extractLsb'_append_eq_left] using congrArg (BitVec.extractLsb' k j) h
  · simpa [BitVec.extractLsb'_append_eq_right] using congrArg (BitVec.extractLsb' 0 k) h

section
variable (f31 g31 : BitVec 11) (rm rn rd rm' rn' rd' : BitVec 5) (f15 imm2 f11 g15 imm2' g11 : BitVec 2)

/-- Equal words have equal slices. -/
theorem diagram_inj_iff :
    diagram f31 rm f15 imm2 f11 rn rd = diagram g31 rm' g15 imm2' g11 rn' rd' ↔
      f31 = g31 ∧ rm = rm' ∧ f15 = g15 ∧ imm2 = imm2' ∧ f11 = g11 ∧ rn = rn' ∧ rd = rd' := by
  unfold diagram
  rw [append_inj_iff]
  simp only [append_inj_iff, and_assoc]

/-- The slices of a word set together from seven slices are those. -/
theorem extractLsb'_diagram : let w := diagram f31 rm f15 imm2 f11 rn rd
    w.extractLsb' 21 11 = f31 ∧ w.extractLsb' 16 5 = rm ∧ w.extractLsb' 14 2 = f15 ∧ w.extractLsb' 12 2 = imm2
      ∧ w.extractLsb' 10 2 = f11 ∧ w.extractLsb' 5 5 = rn ∧ w.extractLsb' 0 5 = rd :=
  (diagram_inj_iff ..).1 (diagram_extractLsb' _)

/-- The conjunction of two words is that of their slices. -/
theorem diagram_and_diagram :
    diagram f31 rm f15 imm2 f11 rn rd &&& diagram g31 rm' g15 imm2' g11 rn' rd' =
      diagram (f31 &&& g31) (rm &&& rm') (f15 &&& g15) (imm2 &&& imm2') (f11 &&& g11) (rn &&& rn') (rd &&& rd') := by
  simp only [diagram, ← BitVec.and_append]

end

/-- The encoding of an instruction, slice by slice. -/
theorem encode_eq_diagram (d n m : RegNo) (e : Lane) :
    encode (.sm3tt1b d n m e) = diagram 0b11001110010#11 (BitVec.ofFin m) 0b10#2 (BitVec.ofFin e) 0b01#2
      (BitVec.ofFin n) (BitVec.ofFin d) :=
  encode_eq_append d n m e

/-! ### The words that match (R49) -/

/-- The mask keeps the fixed bits of a word and clears its fields. -/
theorem and_mask_eq_diagram (w : Word) :
    w &&& sm3tt1bMask =
      diagram (w.extractLsb' 21 11) 0#5 (w.extractLsb' 14 2) 0#2 (w.extractLsb' 10 2) 0#5 0#5 := by
  have hmask : sm3tt1bMask =
      diagram (BitVec.allOnes 11) 0#5 (BitVec.allOnes 2) 0#2 (BitVec.allOnes 2) 0#5 0#5 := by decide
  conv_lhs => rw [hmask, ← diagram_extractLsb' w, diagram_and_diagram]
  simp only [BitVec.and_allOnes, BitVec.and_zero]

/-- A word matches exactly when its fixed bits are the diagram's. -/
theorem match_iff_fixed_bits :
    w &&& sm3tt1bMask = sm3tt1bMatch ↔
      w.extractLsb' 21 11 = 0b11001110010#11 ∧ w.extractLsb' 14 2 = 0b10#2 ∧ w.extractLsb' 10 2 = 0b01#2 := by
  have hmatch : sm3tt1bMatch = diagram 0b11001110010#11 0#5 0b10#2 0#2 0b01#2 0#5 0#5 := by decide
  rw [and_mask_eq_diagram, hmatch, diagram_inj_iff]
  simp only [and_true, true_and]

/-- The word of an instruction matches. -/
theorem encode_match (i : Instr) : encode i &&& sm3tt1bMask = sm3tt1bMatch := by
  obtain ⟨d, n, m, e⟩ := i
  obtain ⟨-, -, hmatch⟩ := Laws.Shape.sm3tt1b d n m e
  exact hmatch

/-! ### Decode and encode (R52, R59) -/

/-- The instruction that the four fields of a word name, whatever its fixed bits (R50, R51). -/
def fieldsInstr (w : Word) : Instr := .sm3tt1b (regField w 0) (regField w 5) (regField w 16) (laneField w 12)

/-- A word decodes to an instruction exactly when it matches and its fields name that instruction. -/
theorem decode_eq_instr_iff : decode w = .instr i ↔ w &&& sm3tt1bMask = sm3tt1bMatch ∧ fieldsInstr w = i := by
  unfold decode fieldsInstr
  split <;> simp [*]

/-- A word decodes to nothing exactly when it does not match. -/
theorem decode_eq_outOfScope_iff : decode w = .outOfScope ↔ w &&& sm3tt1bMask ≠ sm3tt1bMatch := by
  unfold decode
  split <;> simp [*]

/-- The fields of an instruction's word name the instruction. -/
theorem fieldsInstr_encode (i : Instr) : fieldsInstr (encode i) = i := by
  obtain ⟨d, n, m, e⟩ := i
  simp [fieldsInstr, regField, laneField, encode_eq_diagram, extractLsb'_diagram]

/-- A word that matches is the word of the instruction its fields name. -/
theorem encode_fieldsInstr (h : w &&& sm3tt1bMask = sm3tt1bMatch) : encode (fieldsInstr w) = w := by
  obtain ⟨h31, h15, h11⟩ := match_iff_fixed_bits.1 h
  calc encode (fieldsInstr w)
      = diagram 0b11001110010#11 (w.extractLsb' 16 5) 0b10#2 (w.extractLsb' 12 2) 0b01#2 (w.extractLsb' 5 5)
          (w.extractLsb' 0 5) := encode_eq_diagram _ _ _ _
    _ = w := by rw [← h31, ← h15, ← h11, diagram_extractLsb']

/-- The word of an instruction decodes to it. -/
@[simp] theorem decode_encode (i : Instr) : decode (encode i) = .instr i :=
  decode_eq_instr_iff.2 ⟨encode_match i, fieldsInstr_encode i⟩

/-- Four bytes in memory order and what follows them decode as the word they make does (R37). -/
theorem decodeBytes_wordBytes_append (hd : decode w = .instr i) (rest : List Byte) :
    decodeBytes (wordBytes w ++ rest) = .instr i rest := by
  simp [wordBytes, decodeBytes, hd]

/-- A register field's number is the word divided by the weight of the field's low bit, modulo 32 (R8, R50). -/
theorem val_regField (w : Word) (lo : Nat) : (regField w lo).val = w.toNat / 2 ^ lo % 32 := by
  simp [regField, Nat.shiftRight_eq_div_pow]

/-- The element index is the word divided by the weight of the field's low bit, modulo 4 (R8, R51). -/
theorem val_laneField (w : Word) (lo : Nat) : (laneField w lo).val = w.toNat / 2 ^ lo % 4 := by
  simp [laneField, Nat.shiftRight_eq_div_pow]

/-- A word that does not match, fetched, makes the step refused (R52, check 4 of R74). -/
theorem step_refused_outOfScope (hw : FetchesWord s w) (hd : decode w = .outOfScope) : step s = .refused .outOfScope := by
  rw [step_refused_iff_fetch_error (by decide), fetch_error]
  exact .inr (.inr (.inr ⟨w, hw, hd, rfl⟩))

/-- Inverting a bit under the mask takes a word that matches out of the matching words. -/
theorem not_match_xor_of_mask_bit {b : Nat} (h : w &&& sm3tt1bMask = sm3tt1bMatch)
    (hb : sm3tt1bMask.getLsbD b = true) : (w ^^^ (1#32 <<< b)) &&& sm3tt1bMask ≠ sm3tt1bMatch := by
  intro h'
  have hlt : b < 32 := BitVec.lt_of_getLsbD hb
  rw [BitVec.getLsbD_eq_getElem hlt] at hb
  simpa [hb, hlt] using congrArg (BitVec.getLsbD · b) (h.trans h'.symm)

/-- The meaning of an instruction is the fault undefined exactly without the feature (R53, R70). -/
theorem exec_undefined_iff : exec i s = .fault .undefined ↔ s.params.haveSM3 = false := by
  obtain ⟨d, n, m, e⟩ := i
  simp [execSm3tt1b_fault]

end Sys2Proof.Proofs
end

section
/-! SUPPORT. Proofs: what reading the assembler text of a number, an operand and a line gives (`30_encoding.md` R56, R57). -/

namespace Sys2Proof.Proofs

open Sys2Proof.Machine

/-! ### Numbers -/

/-- A digit's value is the number it was written for. -/
theorem digitValue?_digitChar {k : Nat} (h : k < 10) : digitValue? (digitChar k) = some k := by
  interval_cases k <;> rfl

/-- The digits end at the first character that is none. -/
theorem readDigits_of_not_digit {c : Char} (hc : digitValue? c = none) (acc : Nat) (cs : Text) :
    readDigits acc (c :: cs) = (acc, c :: cs) := by
  rw [readDigits, hc]

/-- A number that begins with a digit other than 0 goes on with the digits that follow. -/
theorem readNumber_digitChar {k : Nat} (h : k < 10) (hk : k ≠ 0) (cs : Text) :
    readNumber (digitChar k :: cs) = some (readDigits k cs) := by
  obtain ⟨j, rfl⟩ := Nat.exists_eq_succ_of_ne_zero hk
  rw [readNumber, digitValue?_digitChar h]

/-- A number written in decimal is read back, up to the character that ends it. -/
theorem readNumber_renderNumber {k : Nat} (h : k < 100) {c : Char} (hc : digitValue? c = none) (cs : Text) :
    readNumber (renderNumber k ++ c :: cs) = some (k, c :: cs) := by
  unfold renderNumber
  split
  case isTrue hone =>
    by_cases hk : k = 0
    · subst hk
      rfl
    · rw [List.singleton_append, readNumber_digitChar hone hk, readDigits_of_not_digit hc]
  case isFalse htwo =>
    rw [List.cons_append, List.singleton_append, readNumber_digitChar (by omega) (by omega), readDigits,
      digitValue?_digitChar (by omega)]
    simp only [readDigits_of_not_digit hc, Nat.div_add_mod]

/-! ### Operands and the line -/

/-- A vector operand is read back as its register number. -/
theorem readVector_renderVector (k : RegNo) (cs : Text) : readVector (renderVector k ++ cs) = some (k.val, cs) := by
  have hnum := readNumber_renderNumber (k := k.val) (by omega) (c := '.') rfl
  simp [readVector, renderVector, readFixed, hnum]

/-- An element operand that ends the line is read back as its register number and its index. -/
theorem readElement_renderElement (k : RegNo) (e : Lane) :
    readElement (renderElement k e) = some (k.val, e.val, []) := by
  have hnum := readNumber_renderNumber (k := k.val) (by omega) (c := '.') rfl
  have hidx := readNumber_renderNumber (k := e.val) (by omega) (c := ']') rfl
  simp [readElement, renderElement, readFixed, hnum, hidx]

/-- The comma and the space written after an operand are read off the text of the next one, which begins with no space. -/
theorem readComma_append {cs : Text} (h : skipSpaces cs = cs) : readComma ([',', ' '] ++ cs) = some cs := by
  simp [readComma, skipSpaces, readFixed, h]

/-- The mnemonic and the space after it are read off the line. -/
theorem readFixed_mnemonicText (cs : Text) : readFixed mnemonicText (mnemonicText ++ cs) = some cs := by
  simp [mnemonicText, readFixed]

/-- The space after the mnemonic is read off the line. -/
theorem readFixed_space (cs : Text) : readFixed [' '] ([' '] ++ cs) = some cs := by
  simp [readFixed]

/-- A vector operand begins with no space. -/
theorem skipSpaces_renderVector (k : RegNo) (cs : Text) : skipSpaces (renderVector k ++ cs) = renderVector k ++ cs :=
  rfl

/-- An element operand begins with no space. -/
theorem skipSpaces_renderElement (k : RegNo) (e : Lane) : skipSpaces (renderElement k e) = renderElement k e := rfl

/-- The line of an instruction is read as its operands as plain numbers. -/
theorem readRaw_renderInstr (i : Instr) : readRaw (renderInstr i) = some i.raw := by
  obtain ⟨d, n, m, e⟩ := i
  simp only [renderInstr, readRaw, List.append_assoc, readFixed_mnemonicText, readFixed_space, Option.bind_eq_bind,
    Option.bind_some, skipSpaces_renderVector, readVector_renderVector, readElement_renderElement,
    readComma_append (skipSpaces_renderVector n _), readComma_append (skipSpaces_renderElement m e)]
  rfl

/-- The operands of an instruction are in range and make it again. -/
theorem toInstr?_raw (i : Instr) : i.raw.toInstr? = some i := by
  obtain ⟨d, n, m, e⟩ := i
  obtain ⟨-, hraw, -⟩ := Laws.Shape.sm3tt1b d n m e
  exact hraw

end Sys2Proof.Proofs
end

section
/-! SUPPORT. Proofs of the statements of `30_encoding.md`. -/

namespace Sys2Proof.Proofs

open Sys2Proof.Machine Sys2Proof.Safety

/-- Settles O8: the word matches and its fields name the instruction; its four bytes make the word again. -/
theorem decodeOfEncodeIsIdentity : Obligations.DecodeOfEncodeIsIdentity :=
  fun i => ⟨decode_encode i, decodeBytes_wordBytes_append (decode_encode i)⟩

/-- Settles O7, slice by slice. -/
theorem encodingPlacesEveryBit : Obligations.EncodingPlacesEveryBit := by
  intro d n m i
  simp [encode_eq_diagram, extractLsb'_diagram]

/-- Settles O9: a word that decodes matches, and so is its seven slices with the fixed bits of the diagram. -/
theorem encodeOfDecodeIsIdentity : Obligations.EncodeOfDecodeIsIdentity := by
  intro w i h
  obtain ⟨hmatch, rfl⟩ := decode_eq_instr_iff.1 h
  exact encode_fieldsInstr hmatch

/-- Settles O10, from the two cases of the decode function and the value of each field. -/
theorem decodeIsMatchAndFields : Obligations.DecodeIsMatchAndFields := by
  refine ⟨fun w h => ?_, fun w h => ?_⟩
  · exact ⟨_, _, _, _, decode_eq_instr_iff.2 ⟨h, rfl⟩, by simp [val_regField], val_regField w 5, val_regField w 16,
      val_laneField w 12⟩
  · have hd : decode w = .outOfScope := decode_eq_outOfScope_iff.2 h
    exact ⟨hd, fun s hw => step_refused_outOfScope hw hd⟩

/-- Settles O11: a matching word is the encoding of what its fields name, and every encoding matches. -/
theorem matchingWordsAreTheEncodings : Obligations.MatchingWordsAreTheEncodings := by
  refine fun w => ⟨match_iff_fixed_bits, fun h => ⟨_, encode_fieldsInstr h⟩, ?_⟩
  rintro ⟨i, rfl⟩
  exact encode_match i

/-- Settles O12: the inverted bit is one the match compares. -/
theorem oneWrongFixedBitIsOutOfScope : Obligations.OneWrongFixedBitIsOutOfScope :=
  fun i _ hb => decode_eq_outOfScope_iff.2 (not_match_xor_of_mask_bit (encode_match i) hb)

/-- Settles O14: the line is read as the operands it was written for, and those are in range. -/
theorem assemblyReadsBack : Obligations.AssemblyReadsBack := by
  intro i
  rw [readInstr, readRaw_renderInstr, Option.bind_some, toInstr?_raw]

/-- Settles O22: a matching word decodes, so the step is that instruction's meaning, whose first test is the feature. -/
theorem matchingWordNeedsTheFeature : Obligations.MatchingWordNeedsTheFeature := by
  intro s w hw hmatch
  have hd : decode w = .instr (fieldsInstr w) := decode_eq_instr_iff.2 ⟨hmatch, rfl⟩
  rw [step_eq_exec_of_fetchesWord hw hd, ne_eq, exec_undefined_iff]
  exact ⟨id, fun hfeature => ⟨⟨_, hd⟩, by simp [hfeature]⟩⟩

/-- Settles O13, by running the decoder on the five words. -/
theorem writtenWordsDecode : Obligations.WrittenWordsDecode := by
  unfold Obligations.WrittenWordsDecode
  decide

end Sys2Proof.Proofs
end

section
/-! SUPPORT. Proofs: the completed SM3TT1B and its result, the rotate, the majority, `pc` at the top of the address space, and a
launched text taken instruction by instruction. -/

namespace Sys2Proof.Proofs

open Sys2Proof.Machine Sys2Proof.Safety

variable {s t s' t' : State} {d n m : RegNo} {i : Lane} {vm vn vd vm' vn' : Quad} {ins : Instr} {text : List Instr}

/-! ### The completed instruction (R60, R61, R64) -/

/-- Enabled and with three valued registers, SM3TT1B writes its result to `V[d]` and advances `pc`. -/
theorem exec_sm3tt1b_eq_next (he : Enabled s) (hm : s.readV m = some vm) (hn : s.readV n = some vn)
    (hd : s.readV d = some vd) :
    exec (.sm3tt1b d n m i) s = .next (s.writeV d (sm3tt1bResult vd vn vm i)).advance :=
  execSm3tt1b_next.2 ⟨he.1, he.2, vm, vn, vd, hm, hn, hd, rfl⟩

/-- Enabled and with three valued registers, SM3TT1B completes with its result in `V[d]`. -/
theorem exists_exec_sm3tt1b_readV (he : Enabled s) (hm : s.readV m = some vm) (hn : s.readV n = some vn)
    (hd : s.readV d = some vd) :
    ∃ t, exec (.sm3tt1b d n m i) s = .next t ∧ t.readV d = some (sm3tt1bResult vd vn vm i) :=
  ⟨_, exec_sm3tt1b_eq_next he hm hn hd, by simp⟩

/-- An instruction completes where it is enabled and each register it reads holds a value. -/
theorem exists_exec_next (he : Enabled s) (hv : ∀ k ∈ readsOf ins, (s.readV k).isSome = true) :
    ∃ t, exec ins s = .next t := by
  obtain ⟨d, n, m, i⟩ := ins
  simp only [readsOf, List.forall_mem_cons, Option.isSome_iff_exists] at hv
  obtain ⟨⟨vm, hm⟩, ⟨vn, hn⟩, ⟨vd, hd⟩, -⟩ := hv
  exact ⟨_, exec_sm3tt1b_eq_next he hm hn hd⟩

/-- A completed instruction found a value in each register it reads. -/
theorem isSome_readV_of_exec_next (h : exec ins s = .next t) : ∀ k ∈ readsOf ins, (s.readV k).isSome = true := by
  obtain ⟨d, n, m, i⟩ := ins
  obtain ⟨-, -, vm, vn, vd, hm, hn, hd, -⟩ := execSm3tt1b_next.1 h
  simp [readsOf, hm, hn, hd]

/-- All that a completed instruction does: it writes its destination, one of the registers it reads, and advances `pc`. -/
theorem exec_next_eq_writeV_advance (h : exec ins s = .next t) :
    ∃ k ∈ readsOf ins, ∃ q, t = (s.writeV k q).advance := by
  obtain ⟨d, n, m, i⟩ := ins
  obtain ⟨-, -, vm, vn, vd, -, -, -, rfl⟩ := execSm3tt1b_next.1 h
  exact ⟨d, by simp [readsOf], _, rfl⟩

/-- A completed instruction leaves the parameters. -/
theorem exec_next_params (h : exec ins s = .next t) : t.params = s.params := by
  obtain ⟨-, -, -, rfl⟩ := exec_next_eq_writeV_advance h
  rfl

/-- A completed instruction gives no register a value that had none, and takes none away. -/
theorem isSome_readV_exec_next (h : exec ins s = .next t) (k : RegNo) :
    (t.readV k).isSome = (s.readV k).isSome := by
  obtain ⟨j, hj, q, rfl⟩ := exec_next_eq_writeV_advance h
  have hvalued := isSome_readV_of_exec_next h j hj
  rw [State.readV_advance, State.readV_writeV]
  split
  · subst_vars
    exact hvalued.symm
  · rfl

/-- A register reads as a value exactly when it is not marked `unwritten`. -/
theorem isSome_readV_iff {k : RegNo} : (s.readV k).isSome = true ↔ ¬ s.v[k] = .unwritten := by
  rw [← State.readV_eq_none, Option.isSome_iff_ne_none]

/-! ### The result (R60, R63) -/

/-- The result's four elements. -/
theorem elem_sm3tt1bResult (vd vn vm : Quad) (i : Lane) :
    elem (sm3tt1bResult vd vn vm i) 3 = sm3tt1 vd vn (elem vm i) ∧ elem (sm3tt1bResult vd vn vm i) 2 = elem vd 3
      ∧ elem (sm3tt1bResult vd vn vm i) 1 = rol32 (elem vd 2) 9 ∧ elem (sm3tt1bResult vd vn vm i) 0 = elem vd 1 :=
  elem_ofElems _ _ _ _

/-- Enabled and with three valued registers, SM3TT1B completes with these four elements in `V[d]`. -/
theorem exists_exec_sm3tt1b_elem (he : Enabled s) (hm : s.readV m = some vm) (hn : s.readV n = some vn)
    (hd : s.readV d = some vd) :
    ∃ t r, exec (.sm3tt1b d n m i) s = .next t ∧ t.readV d = some r ∧ elem r 3 = sm3tt1 vd vn (elem vm i)
      ∧ elem r 2 = elem vd 3 ∧ elem r 1 = rol32 (elem vd 2) 9 ∧ elem r 0 = elem vd 1 := by
  obtain ⟨t, hexec, hr⟩ := exists_exec_sm3tt1b_readV he hm hn hd
  exact ⟨t, _, hexec, hr, elem_sm3tt1bResult vd vn vm i⟩

/-- Of `V[n]` the result reads the top element alone, and of `V[m]` the chosen one. -/
theorem sm3tt1bResult_congr (hn : elem vn' 3 = elem vn 3) (hm : elem vm' i = elem vm i) :
    sm3tt1bResult vd vn' vm' i = sm3tt1bResult vd vn vm i := by
  simp only [sm3tt1bResult, sm3tt1, sm3ss2, hn, hm]

/-- The elements of zero are zero. -/
@[simp] theorem elem_zero (e : Lane) : elem 0 e = 0 :=
  BitVec.extractLsb'_zero

/-- From registers that hold zero the result is zero. -/
theorem sm3tt1bResult_zero (i : Lane) : sm3tt1bResult 0 0 0 i = 0 := by
  simp only [sm3tt1bResult, sm3tt1, sm3ss2, elem_zero]
  decide

/-! ### The rotate (R10, R66) -/

/-- The rotate is two shifts. -/
theorem rol32_eq_shifts (x : Word) {sh : Nat} (h : sh < 32) : rol32 x sh = x <<< sh ||| x >>> (32 - sh) := by
  rw [rol32, BitVec.rotateLeft_def, Nat.mod_eq_of_lt h]

/-- Bit `j` goes to bit `(j + sh) mod 32`: past the top it comes in at the bottom. -/
theorem getLsbD_rol32 (x : Word) (sh : Nat) {j : Nat} (hj : j < 32) :
    (rol32 x sh).getLsbD ((j + sh) % 32) = x.getLsbD j := by
  rw [rol32, BitVec.getLsbD_rotateLeft]
  by_cases hwrap : (j + sh) % 32 < sh % 32
  · have hback : 32 - sh % 32 + (j + sh) % 32 = j := by omega
    simp [hwrap, hback]
  · have hback : (j + sh) % 32 - sh % 32 = j := by omega
    simp [hwrap, hback, Nat.mod_lt]

/-- No bit is lost. -/
theorem rol32_injective (sh : Nat) : Function.Injective (rol32 · sh) := by
  intro x y h
  have h : rol32 x sh = rol32 y sh := h
  apply BitVec.eq_of_getLsbD_eq
  intro j hj
  rw [← getLsbD_rol32 x sh hj, h, getLsbD_rol32 y sh hj]

/-! ### The majority (R67) -/

/-- A bit of the majority is the majority of the three bits. -/
theorem getLsbD_maj (a b c : Word) (j : Nat) :
    (maj a b c).getLsbD j = Bool.atLeastTwo (a.getLsbD j) (c.getLsbD j) (b.getLsbD j) := by
  simp [maj]

/-- Three bits have a majority exactly when at least two of them are 1. -/
theorem atLeastTwo_iff (x y z : Bool) : Bool.atLeastTwo x z y = true ↔ 2 ≤ x.toNat + y.toNat + z.toNat := by
  decide +revert

theorem maj_swap_left (a b c : Word) : maj a b c = maj b a c := by
  unfold maj
  ac_rfl

theorem maj_swap_right (a b c : Word) : maj a b c = maj a c b := by
  unfold maj
  ac_rfl

/-- Two equal words are the majority. -/
theorem maj_self (x y : Word) : maj x x y = x := by
  apply BitVec.eq_of_getLsbD_eq
  intro j _
  rw [getLsbD_maj]
  cases x.getLsbD j <;> simp

theorem maj_zero (x y : Word) : maj x y 0 = x &&& y := by
  simp [maj]

theorem maj_allOnes (x y : Word) : maj x y (BitVec.allOnes 32) = x ||| y := by
  apply BitVec.eq_of_getLsbD_eq
  intro j hj
  rw [getLsbD_maj, BitVec.getLsbD_allOnes, decide_eq_true hj, Bool.atLeastTwo_true_mid, BitVec.getLsbD_or]

/-! ### The top of the address space (R62) -/

/-- An aligned `pc` that would wrap makes the step refused (check 2 of R74). -/
theorem step_refused_pcWrap (haligned : s.pc.toNat % 4 = 0) (hwraps : 2 ^ 64 ≤ s.pc.toNat + 4) :
    step s = .refused .pcWrap := by
  rw [step_refused_iff_fetch_error (by decide), fetch_error]
  exact .inr (.inl ⟨pcAligned_iff_mod.2 haligned, decide_eq_true hwraps, rfl⟩)

/-- Only one aligned `pc` would wrap. -/
theorem wraps_iff_eq_top (haligned : s.pc.toNat % 4 = 0) :
    2 ^ 64 ≤ s.pc.toNat + 4 ↔ s.pc = 0xFFFFFFFFFFFFFFFC#64 := by
  rw [← BitVec.toNat_inj, BitVec.toNat_ofNat]
  omega

/-! ### A launched text, instruction by instruction (R68, R86) -/

/-- A launched text's first instruction completes as a step, and what remains of the text, if anything, is launched by the state
it leaves. (FPCheck is asked of no state at the end address, so nothing is said of the rest when it is empty; log 25.) -/
theorem launchReady_cons (h : LaunchReady s (ins :: text)) :
    ∃ t, exec ins s = .next t ∧ step s = .next t ∧ (text ≠ [] → LaunchReady t text) := by
  obtain ⟨⟨he, hok⟩, haligned, htop, ⟨hword, htext⟩, hvalued⟩ := h
  rw [List.length_cons] at hok htop
  obtain ⟨t, hexec⟩ := exists_exec_next he (hvalued ins List.mem_cons_self)
  have hfetch : FetchesWord s (encode ins) := ⟨pcAligned_iff_mod.1 haligned, by omega, hword⟩
  have hstep : step s = .next t := (step_eq_exec_of_fetchesWord hfetch (decode_encode ins)).trans hexec
  refine ⟨t, hexec, hstep, fun hne => ?_⟩
  have hpos : 0 < text.length := List.length_pos_iff.2 hne
  have hpc := pc_toNat_of_step_next hstep
  have hok' (j : Nat) (u : State) (hj : j < text.length) (hu : Host.Core.run Sys2Proof.core j t = .next u) :
      u.fpOutcome = .ok :=
    hok (j + 1) u (by omega) ((core_run_next j hstep).trans hu)
  have hparams : t.params = s.params := exec_next_params hexec
  have henabled : Enabled t := ⟨hparams ▸ he.1, hok' 0 t hpos rfl⟩
  have htext' : TextAt t.params.imem t.pc.toNat text := by rwa [hparams, hpc]
  exact ⟨⟨henabled, hok'⟩, pcAligned_of_step_next hstep, by omega, htext', fun j hj k hk =>
    isSome_readV_of_step_next hstep (hvalued j (List.mem_cons_of_mem _ hj) k hk)⟩

/-- The time of a text whose first instruction completes is that instruction's and the rest's, in the state it leaves. -/
theorem textCycles_cons (cycles : Instr → State → Nat) (h : exec ins s = .next t) :
    textCycles cycles (ins :: text) s = cycles ins s + textCycles cycles text t := by
  rw [textCycles, h]

/-- States that differ in data alone still do after the instruction that completes in both (log 22). -/
theorem differInDataOnly_exec_next (h : DifferInDataOnly s t) (hs : exec ins s = .next s') (ht : exec ins t = .next t') :
    DifferInDataOnly s' t' := by
  obtain ⟨hpc, hparams, hvalued, hrest⟩ := h
  have hvalued' (k : RegNo) : (s'.readV k).isSome = (t'.readV k).isSome := by
    rw [isSome_readV_exec_next hs, hvalued, isSome_readV_exec_next ht]
  obtain ⟨_, _, _, rfl⟩ := exec_next_eq_writeV_advance hs
  obtain ⟨_, _, _, rfl⟩ := exec_next_eq_writeV_advance ht
  exact ⟨congrArg (· + 4) hpc, hparams, hvalued', hrest⟩

end Sys2Proof.Proofs
end

section
/-! SUPPORT. Proofs of the statements of `40_advsimd_sm3.md`. -/

namespace Sys2Proof.Proofs

open Sys2Proof.Machine Sys2Proof.Safety

/-- Settles O40, by induction on the text: the first instruction completes in both states in the same time, and leaves states
that differ in data alone. -/
theorem promisedTimeOfATextIsDataIndependent : Obligations.PromisedTimeOfATextIsDataIndependent := by
  intro cycles s t text hpromise hs ht hdit hdata
  induction text generalizing s t with
  | nil => rfl
  | cons ins text ih =>
    obtain ⟨s', hexec, -, hs'⟩ := launchReady_cons hs
    obtain ⟨t', hexec', -, ht'⟩ := launchReady_cons ht
    have hfirst : cycles ins s = cycles ins t := hpromise ins s t hdit hdata
    have hrest : textCycles cycles text s' = textCycles cycles text t' := by
      by_cases hnil : text = []
      · subst hnil
        rfl
      · exact ih s' t' (hs' hnil) (ht' hnil) (exec_next_params hexec ▸ hdit)
          (differInDataOnly_exec_next hdata hexec hexec')
    rw [textCycles_cons cycles hexec, textCycles_cons cycles hexec', hfirst, hrest]

/-- Settles O18, from what a completed step does to `pc` and the fetch's second check. -/
theorem pcAdvancesByFourOrIsRefused : Obligations.PcAdvancesByFourOrIsRefused :=
  ⟨fun _ _ => pc_toNat_of_step_next, fun _ => step_refused_pcWrap, fun _ => wraps_iff_eq_top,
    fun _ hstop => congrArg State.pc (stateAfter_eq_self hstop)⟩

/-- Settles O27: the rotates are the shifts written, the rest of the result is the pseudocode's by definition; the stops are
SM3TT1B's two faults and its refusal. -/
theorem completesAsThePseudocodeSays : Obligations.CompletesAsThePseudocodeSays := by
  refine ⟨fun d n m i s vm vn vd he _ hm hn hd => ?_, fun d n m i s => ⟨fun hf => ?_, fun r hf htrap => ?_, ?_⟩,
    fun w hw => decode_eq_instr_iff.2 ⟨hw, rfl⟩, fun d s he _ hd => ?_, fun d n m i s he _ hd hn hm => ?_⟩
  · rw [← State.readV_eq_some] at hm hn hd
    rw [exec_sm3tt1b_eq_next he hm hn hd]
    simp only [sm3tt1bResult, sm3tt1, sm3ss2, rol32_eq_shifts (sh := 12) _ (by decide),
      rol32_eq_shifts (sh := 9) _ (by decide)]
    rfl
  · exact execSm3tt1b_fault.2 (.inl ⟨hf, rfl⟩)
  · exact execSm3tt1b_fault.2 (.inr ⟨hf, r, htrap, rfl⟩)
  · simp only [← State.readV_eq_none]
    exact fun he hnone => execSm3tt1b_refused.2 ⟨he.1, he.2, hnone, rfl⟩
  · simp only [← State.readV_eq_some] at hd ⊢
    exact exists_exec_sm3tt1b_readV he hd hd hd
  · simp only [← State.readV_eq_some] at hd hn hm ⊢
    rw [← sm3tt1bResult_zero i]
    exact exists_exec_sm3tt1b_readV he hm hn hd

/-- Settles O28: any two values with the elements the result reads give the same result, in any two states. -/
theorem resultElementByElement : Obligations.ResultElementByElement := by
  intro d n m i s vm vn vd he hm hn hd
  obtain ⟨t, hexec, hr⟩ := exists_exec_sm3tt1b_readV (i := i) he hm hn hd
  obtain ⟨h3, h2, h1, h0⟩ := elem_sm3tt1bResult vd vn vm i
  refine ⟨t, _, hexec, hr, h3, h2, h1, h0, fun vn' vm' s' hvn hvm he' hm' hn' hd' => ?_⟩
  rw [← sm3tt1bResult_congr hvn hvm]
  exact exists_exec_sm3tt1b_readV he' hm' hn' hd'

/-- Settles O30: each coincidence is the general case with equal register numbers, and the marks stay. -/
theorem coincidingRegistersReadOldValues : Obligations.CoincidingRegistersReadOldValues := by
  refine ⟨fun d i s q he hd => ⟨exists_exec_sm3tt1b_elem he hd hd hd, fun m vm hm => exists_exec_sm3tt1b_elem he hm hd hd,
    fun n vn hn => ⟨exists_exec_sm3tt1b_elem he hd hn hd, exists_exec_sm3tt1b_elem he hn hn hd⟩⟩,
    fun j s t h => ⟨fun k => ?_, fun k hk => isSome_readV_iff.1 (isSome_readV_of_exec_next h k hk)⟩⟩
  rw [← not_iff_not]
  simp only [← isSome_readV_iff, isSome_readV_exec_next h]

/-- Settles O31, from the sum of the top element and the value of a sum as a number. -/
theorem topElementIsTheSumModuloTwoPow32 : Obligations.TopElementIsTheSumModuloTwoPow32 := by
  intro d n m i s vm vn vd he hm hn hd
  obtain ⟨t, r, hexec, hr, h3, -⟩ := exists_exec_sm3tt1b_elem (i := i) he hm hn hd
  refine ⟨t, r, hexec, hr, ?_, ?_, ?_⟩ <;> rw [h3, sm3tt1]
  · simp only [BitVec.toNat_add, Nat.mod_add_mod]
  · simp only [BitVec.toNat_add]
  · ac_rfl

/-- Settles O32, from the bit each bit goes to, and the rotate as two shifts. -/
theorem rotatesMoveBitsLeft : Obligations.RotatesMoveBitsLeft := by
  refine ⟨fun x sh hsh => ⟨fun j => getLsbD_rol32 x sh, fun y h => rol32_injective sh h, ?_⟩,
    fun x => ⟨rol32_eq_shifts x (by decide), rol32_eq_shifts x (by decide)⟩, by decide⟩
  rcases hsh with rfl | rfl <;> decide

/-- Settles O33, bit by bit. -/
theorem majorityIsAtLeastTwoOfThree : Obligations.MajorityIsAtLeastTwoOfThree := by
  refine ⟨fun a b c j => ?_, fun a b c => ⟨maj_swap_left a b c, maj_swap_right a b c, ?_⟩,
    fun x y => ⟨maj_self x y, maj_zero x y, maj_allOnes x y⟩, by decide⟩
  · rw [getLsbD_maj, atLeastTwo_iff]
  · rw [maj_swap_left, maj_swap_right, maj_swap_left]

/-- Settles O43: the advance at the top is to 0 (log 21), and the fetch refuses before it. -/
theorem meaningAloneAddsModuloTwoPow64 : Obligations.MeaningAloneAddsModuloTwoPow64 := by
  intro d n m i s vm vn vd he hpc hm hn hd
  rw [← State.readV_eq_some] at hm hn hd
  have haligned : s.pc.toNat % 4 = 0 := by rw [hpc]; decide
  refine ⟨?_, step_refused_pcWrap haligned ((wraps_iff_eq_top haligned).2 hpc)⟩
  rw [exec_sm3tt1b_eq_next he hm hn hd]
  simp [State.advance, State.writeV, hpc]

end Sys2Proof.Proofs
end

section
/-! SUPPORT. Proofs: the fetched instruction and its two faults, what a completed step has done, the states a run reaches before its
end address, and the four ways a run ends. -/

namespace Sys2Proof.Proofs

open Sys2Proof.Machine Sys2Proof.Safety

variable {s t u : State} {w : Word} {i : Instr} {f : Fault} {stop : EndAddr} {j k : Nat} {e : RunEnd}

/-! ### The fetched instruction and its faults (R69, R70, R71) -/

/-- The fetch gives an instruction exactly when a word is fetched that decodes to it. -/
theorem fetch_ok_iff_fetchesWord : s.fetch = .ok i ↔ ∃ w, FetchesWord s w ∧ decode w = .instr i := by
  simp only [fetch_ok, fetchesWord_iff, and_assoc, exists_and_left]

/-- The meaning of an instruction traps exactly with the feature and where the enable check traps (R71). -/
theorem exec_trap_iff {r : TrapReason} :
    exec i s = .fault (.fpAdvSIMDTrap r) ↔ s.params.haveSM3 = true ∧ s.fpOutcome = .trap r := by
  obtain ⟨d, n, m, e⟩ := i
  simp [execSm3tt1b_fault]

/-- A fault whose cause in the meaning is the same for every instruction is the step's exactly when a word is fetched that
decodes and the cause holds: the fetch itself never faults (R72). -/
theorem step_fault_iff_of_exec_fault_iff {cause : Prop} (h : ∀ i, exec i s = .fault f ↔ cause) :
    step s = .fault f ↔ (∃ w i, FetchesWord s w ∧ decode w = .instr i) ∧ cause := by
  simp only [step_fault, fetch_ok_iff_fetchesWord, h, exists_and_right, exists_comm (α := Instr)]

/-- The step is undefined exactly when a word is fetched that decodes and the feature is absent (R70). -/
theorem step_undefined_iff :
    step s = .fault .undefined ↔
      (∃ w i, FetchesWord s w ∧ decode w = .instr i) ∧ s.params.haveSM3 = false :=
  step_fault_iff_of_exec_fault_iff fun _ => exec_undefined_iff

/-- The step traps exactly when a word is fetched that decodes, the feature is there and the enable check traps (R71). -/
theorem step_trap_iff {r : TrapReason} :
    step s = .fault (.fpAdvSIMDTrap r) ↔
      (∃ w i, FetchesWord s w ∧ decode w = .instr i) ∧ s.params.haveSM3 = true ∧ s.fpOutcome = .trap r :=
  step_fault_iff_of_exec_fault_iff fun _ => exec_trap_iff

/-- The meaning of an instruction is not refused where every register holds a value (R61). -/
theorem exec_ne_refused_of_valued {r : Refusal} (hvalued : ∀ k, (s.readV k).isSome = true) :
    exec i s ≠ .refused r := by
  obtain ⟨d, n, m, e⟩ := i
  have hne (k : RegNo) : s.readV k ≠ none := Option.isSome_iff_ne_none.1 (hvalued k)
  simp [execSm3tt1b_refused, hne]

/-! ### What completed steps have done (R33, R60) -/

/-- An instruction that completes leaves the register file that its effect gives. -/
theorem exec_next_v (h : exec i s = .next t) : t.v = regsAfter s.v i := by
  obtain ⟨d, n, m, e⟩ := i
  obtain ⟨-, -, vm, vn, vd, hm, hn, hd, rfl⟩ := execSm3tt1b_next.1 h
  rw [State.readV] at hm hn hd
  simp only [State.advance_v, State.writeV_v, regsAfter, hm, hn, hd]

/-- A completed step has done the effect of the instruction whose word is at `pc`. -/
theorem exists_word_of_step_next (h : step s = .next t) :
    ∃ i, s.params.imem.readWord s.pc.toNat = some (encode i) ∧ t.v = regsAfter s.v i := by
  obtain ⟨i, hf, he⟩ := step_next.1 h
  obtain ⟨-, -, w, hword, hd⟩ := fetch_ok.1 hf
  exact ⟨i, encodeOfDecodeIsIdentity w i hd ▸ hword, exec_next_v he⟩

/-- One completed step and then the others: completed steps from `s` begin with the one from `s`. -/
theorem core_run_succ_eq_next :
    Host.Core.run Sys2Proof.core (j + 1) s = .next u ↔
      ∃ t, step s = .next t ∧ Host.Core.run Sys2Proof.core j t = .next u := by
  cases h : step s with
  | next t => rw [core_run_next j h]; simp
  | fault f =>
    have hcore : Sys2Proof.core.step s = .fault f := h
    simp [Host.Core.run, hcore]
  | refused r =>
    have hcore : Sys2Proof.core.step s = .refused r := h
    simp [Host.Core.run, hcore]

/-- Completed steps are whole instructions: `j` of them have done the effects of `j` words of the text, one after the other. -/
theorem exists_text_of_run_next (h : Host.Core.run Sys2Proof.core j s = .next u) :
    ∃ text : List Instr, text.length = j ∧ TextAt s.params.imem s.pc.toNat text ∧ u.v = text.foldl regsAfter s.v
      ∧ u.pc.toNat = s.pc.toNat + 4 * j ∧ u.rest = s.rest ∧ u.params = s.params := by
  induction j generalizing s with
  | zero =>
    cases h
    exact ⟨[], rfl, trivial, rfl, rfl, rfl, rfl⟩
  | succ j ih =>
    obtain ⟨t, hstep, hrun⟩ := core_run_succ_eq_next.1 h
    obtain ⟨text, rfl, htext, hv, hpc, hrest, hparams⟩ := ih hrun
    obtain ⟨i, hword, hti⟩ := exists_word_of_step_next hstep
    obtain ⟨-, htparams, -, -, -, -, htrest⟩ := stepKeepsRestAndParameters s t hstep
    have htpc := pc_toNat_of_step_next hstep
    rw [htparams, htpc] at htext
    refine ⟨i :: text, rfl, ⟨hword, htext⟩, ?_, ?_, hrest.trans htrest, hparams.trans htparams⟩
    · rw [hv, hti, List.foldl_cons]
    · rw [hpc, htpc, Nat.mul_succ]
      omega

/-! ### The states a run reaches (R87) -/

/-- `j` completed steps lead from `s` to `u`, none of them from the end address. -/
def Reaches (stop : EndAddr) (j : Nat) (s u : State) : Prop :=
  Host.Core.run Sys2Proof.core j s = .next u ∧ NotYetAt stop j s

/-- Without a step a run is where it was launched. -/
theorem reaches_zero : Reaches stop 0 s u ↔ u = s := by
  constructor
  · rintro ⟨hrun, -⟩
    cases hrun
    rfl
  · rintro rfl
    exact ⟨rfl, fun i hi => absurd hi i.not_lt_zero⟩

/-- Completed steps lead to one state alone. -/
theorem forall_core_run_next_iff {p : State → Prop} (h : Host.Core.run Sys2Proof.core j s = .next u) :
    (∀ x, Host.Core.run Sys2Proof.core j s = .next x → p x) ↔ p u := by
  refine ⟨fun hall => hall u h, fun hu x hx => ?_⟩
  cases h.symm.trans hx
  exact hu

/-- The states passed in one step more are the launch state and those the rest of the run passes. -/
theorem notYetAt_succ_of_step_next (h : step s = .next t) :
    NotYetAt stop (j + 1) s ↔ s.pc ≠ stop.addr ∧ NotYetAt stop j t := by
  simp only [NotYetAt, Nat.forall_lt_succ_left, core_run_next _ h]
  exact and_congr_left' (forall_core_run_next_iff rfl)

/-- The states passed in one step more are those passed before and the state the run is in. -/
theorem notYetAt_succ_of_run_next (h : Host.Core.run Sys2Proof.core j s = .next u) :
    NotYetAt stop (j + 1) s ↔ NotYetAt stop j s ∧ u.pc ≠ stop.addr := by
  simp only [NotYetAt, Nat.forall_lt_succ_right]
  exact and_congr_right' (forall_core_run_next_iff h)

/-- A run reaches `u` in `j + 1` steps exactly when its first step is not from the end address and the state that step leaves
reaches `u` in `j`. -/
theorem reaches_succ :
    Reaches stop (j + 1) s u ↔ s.pc ≠ stop.addr ∧ ∃ t, step s = .next t ∧ Reaches stop j t u := by
  simp only [Reaches, core_run_succ_eq_next]
  constructor
  · rintro ⟨⟨t, hstep, hrun⟩, hnot⟩
    obtain ⟨hpc, hnot⟩ := (notYetAt_succ_of_step_next hstep).1 hnot
    exact ⟨hpc, t, hstep, hrun, hnot⟩
  · rintro ⟨hpc, t, hstep, hrun, hnot⟩
    exact ⟨⟨t, hstep, hrun⟩, (notYetAt_succ_of_step_next hstep).2 ⟨hpc, hnot⟩⟩

/-- A run that stops short of the end address, in fewer than `k` steps and for the cause `p`: the state it is in counts among those
it passed. -/
theorem exists_reaches_ne_iff {p : Prop} :
    (∃ j, Reaches stop j s u ∧ j < k ∧ u.pc ≠ stop.addr ∧ p) ↔
      ∃ j < k, Host.Core.run Sys2Proof.core j s = .next u ∧ NotYetAt stop (j + 1) s ∧ p := by
  refine exists_congr fun j => ⟨?_, ?_⟩
  · rintro ⟨⟨hrun, hnot⟩, hj, hpc, hp⟩
    exact ⟨hj, hrun, (notYetAt_succ_of_run_next hrun).2 ⟨hnot, hpc⟩, hp⟩
  · rintro ⟨hj, hrun, hnot, hp⟩
    obtain ⟨hnot, hpc⟩ := (notYetAt_succ_of_run_next hrun).1 hnot
    exact ⟨⟨hrun, hnot⟩, hj, hpc, hp⟩

/-! ### The four ways a run ends (R76, R87) -/

/-- The state a run ends in. -/
def endState : RunEnd → State
  | .complete u | .faulted _ u | .refused _ u | .unfinished u => u

/-- What a run of at most `k` steps that ends after `j` completed ones finds in the state it ends in. -/
def EndsAfter (stop : EndAddr) (k j : Nat) : RunEnd → Prop
  | .complete u => j ≤ k ∧ u.pc = stop.addr
  | .faulted f u => j < k ∧ u.pc ≠ stop.addr ∧ step u = .fault f
  | .refused r u => j < k ∧ u.pc ≠ stop.addr ∧ step u = .refused r
  | .unfinished u => j = k ∧ u.pc ≠ stop.addr

/-- One more step, allowed and completed, changes nothing about an ending. -/
theorem endsAfter_succ : EndsAfter stop (k + 1) (j + 1) e ↔ EndsAfter stop k j e := by
  cases e <;> simp [EndsAfter]

/-- A run that ends has completed no more steps than it was allowed. -/
theorem EndsAfter.le (h : EndsAfter stop k j e) : j ≤ k := by
  cases e with
  | complete u => exact h.1
  | faulted f u | refused r u => exact h.1.le
  | unfinished u => exact h.1.le

/-- At the end address a run is complete (R87). -/
theorem runTo_of_pc_eq (k : Nat) (h : s.pc = stop.addr) : runTo stop k s = .complete s := by
  cases k <;> simp [runTo, h]

/-- A run whose first step completes goes on from the next state. -/
theorem runTo_succ_of_step_next (hpc : s.pc ≠ stop.addr) (h : step s = .next t) :
    runTo stop (k + 1) s = runTo stop k t := by
  simp [runTo, hpc, h]

/-- A run that finds an ending in its launch state ends so. -/
theorem runTo_eq_of_endsAfter_zero (h : EndsAfter stop k 0 e) : runTo stop k (endState e) = e := by
  cases e with
  | complete u => exact runTo_of_pc_eq k h.2
  | faulted f u | refused r u =>
    obtain ⟨hk, hpc, hstep⟩ := h
    obtain ⟨k, rfl⟩ := Nat.exists_eq_succ_of_ne_zero hk.ne'
    simp [endState, runTo, hpc, hstep]
  | unfinished u =>
    obtain ⟨rfl, hpc⟩ := h
    simp [endState, runTo, hpc]

/-- A run that reaches a state and finds an ending there ends so. -/
theorem runTo_eq_of_reaches (hr : Reaches stop j s (endState e)) (he : EndsAfter stop k j e) :
    runTo stop k s = e := by
  induction j generalizing s k with
  | zero =>
    obtain rfl := reaches_zero.1 hr
    exact runTo_eq_of_endsAfter_zero he
  | succ j ih =>
    obtain ⟨hpc, t, hstep, hr⟩ := reaches_succ.1 hr
    obtain ⟨k, rfl⟩ := Nat.exists_eq_succ_of_ne_zero (Nat.ne_zero_of_lt he.le)
    rw [runTo_succ_of_step_next hpc hstep]
    exact ih hr (endsAfter_succ.1 he)

/-- Every run reaches a state in which it finds its ending. -/
theorem exists_reaches_endsAfter (stop : EndAddr) (k : Nat) (s : State) :
    ∃ j e, Reaches stop j s (endState e) ∧ EndsAfter stop k j e := by
  induction k generalizing s with
  | zero =>
    by_cases hpc : s.pc = stop.addr
    · exact ⟨0, .complete s, reaches_zero.2 rfl, le_rfl, hpc⟩
    · exact ⟨0, .unfinished s, reaches_zero.2 rfl, rfl, hpc⟩
  | succ k ih =>
    by_cases hpc : s.pc = stop.addr
    · exact ⟨0, .complete s, reaches_zero.2 rfl, Nat.zero_le _, hpc⟩
    · cases hstep : step s with
      | next t =>
        obtain ⟨j, e, hr, he⟩ := ih t
        exact ⟨j + 1, e, reaches_succ.2 ⟨hpc, t, hstep, hr⟩, endsAfter_succ.2 he⟩
      | fault f => exact ⟨0, .faulted f s, reaches_zero.2 rfl, k.succ_pos, hpc, hstep⟩
      | refused r => exact ⟨0, .refused r s, reaches_zero.2 rfl, k.succ_pos, hpc, hstep⟩

/-- A run ends so exactly when it reaches a state in which it finds that ending. -/
theorem runTo_eq_iff :
    runTo stop k s = e ↔ ∃ j, Reaches stop j s (endState e) ∧ EndsAfter stop k j e := by
  refine ⟨?_, fun ⟨_, hr, he⟩ => runTo_eq_of_reaches hr he⟩
  rintro rfl
  obtain ⟨j, e, hr, he⟩ := exists_reaches_endsAfter stop k s
  rw [runTo_eq_of_reaches hr he]
  exact ⟨j, hr, he⟩

end Sys2Proof.Proofs
end

section
/-! SUPPORT. Proofs of the statements of `60_exceptions.md`. -/

namespace Sys2Proof.Proofs

open Sys2Proof.Machine Sys2Proof.Safety

/-- Settles O4, by the outcome of the step: each fault and each refusal has its one cause, and the invariant excludes the causes
of `pcMisaligned` and `unwrittenRegister`. -/
theorem invariantRulesOutUnwrittenAndMisaligned : Obligations.InvariantRulesOutUnwrittenAndMisaligned := by
  rintro s ⟨-, haligned, hvalued⟩
  cases h : step s with
  | next t => exact .inl ⟨t, rfl⟩
  | fault f =>
    cases f with
    | undefined => exact .inr (.inl ⟨rfl, (step_undefined_iff.1 h).2⟩)
    | fpAdvSIMDTrap r => exact .inr (.inr (.inl ⟨r, rfl, (step_trap_iff.1 h).2⟩))
  | refused r =>
    obtain hf | ⟨i, -, he⟩ := step_refused.1 h
    · obtain ⟨hmis, -⟩ | ⟨-, hwraps, rfl⟩ | ⟨-, -, hnone, rfl⟩ | ⟨w, hw, hd, rfl⟩ := fetch_error.1 hf
      · exact absurd haligned (Bool.eq_false_iff.1 hmis)
      · have htop := (wraps_iff_eq_top (pcAligned_iff_mod.1 haligned)).1 (of_decide_eq_true hwraps)
        exact .inr (.inr (.inr (.inl ⟨rfl, htop⟩)))
      · exact .inr (.inr (.inr (.inr (.inl ⟨rfl, hnone⟩))))
      · exact .inr (.inr (.inr (.inr (.inr ⟨rfl, w, hw, hd⟩))))
    · exact absurd he (exec_ne_refused_of_valued hvalued)

/-- Settles O19: the first four checks are the fetch's; after them the step is the meaning, whose checks are O27's clauses. -/
theorem checksRunInOrder : Obligations.ChecksRunInOrder := by
  obtain ⟨hmisaligned, -⟩ := misalignedPcIsRefused
  obtain ⟨-, hstops, -⟩ := completesAsThePseudocodeSays
  refine fun s => ⟨fun hmod => hmisaligned s ?_, step_refused_pcWrap, fun haligned htop => ?_, fun w hw => ⟨fun hno => ?_, ?_⟩⟩
  · rwa [ne_eq, ← pcAligned_iff_low_bits, pcAligned_iff_mod]
  · exact (fetchReadsFourBytesLittleEndian s haligned htop).2
  · exact step_refused_outOfScope hw (decode_eq_outOfScope_iff.2 hno)
  · intro d n m i hd
    obtain ⟨hundefined, htrap, hunwritten⟩ := hstops d n m i s
    rw [step_eq_exec_of_fetchesWord hw hd]
    refine ⟨hundefined, htrap, hunwritten, fun vm vn vd he hvm hvn hvd => ?_⟩
    rw [← State.readV_eq_some] at hvm hvn hvd
    exact exec_sm3tt1b_eq_next he hvm hvn hvd

/-- Settles O21, from the cause of each fault in the fetched instruction's meaning; a step that faults does not complete. -/
theorem faultsExactlyUnderTheirCauses : Obligations.FaultsExactlyUnderTheirCauses := by
  refine ⟨fun s => step_undefined_iff, fun s r => step_trap_iff, fun s f h => ⟨?_, ?_⟩⟩
  · cases f with
    | undefined => exact .inl rfl
    | fpAdvSIMDTrap r => exact .inr ⟨r, rfl⟩
  · exact stateAfter_eq_self fun t => by simp [h]

/-- Settles O23: `runTo_eq_iff` for each of the three endings, and what completed steps have done. -/
theorem runEndsAfterWholeInstructions : Obligations.RunEndsAfterWholeInstructions := by
  refine ⟨fun s u stop k => runTo_eq_iff.trans (exists_congr fun j => ⟨?_, ?_⟩),
    fun s u f stop k => runTo_eq_iff.trans exists_reaches_ne_iff,
    fun s u r stop k => runTo_eq_iff.trans exists_reaches_ne_iff, fun s u j => exists_text_of_run_next⟩
  · rintro ⟨⟨hrun, hnot⟩, hj, hpc⟩
    exact ⟨hj, hrun, hnot, hpc⟩
  · rintro ⟨hj, hrun, hnot, hpc⟩
    exact ⟨⟨hrun, hnot⟩, hj, hpc⟩

end Sys2Proof.Proofs
end

section
/-! SUPPORT. Proofs: what the instruction after reads, where access stays enabled, how far `j` completed steps are from the end address,
and the run of a launched text. -/

namespace Sys2Proof.Proofs

open Sys2Proof.Machine Sys2Proof.Safety

variable {s t u : State} {i : Instr} {stop : EndAddr} {j l : Nat} {text : List Instr}

/-! ### The next instruction (R88) -/

/-- After an instruction that wrote `r` to `V[d]`, a register reads as `r` where it is `V[d]`, and as before elsewhere. -/
theorem readV_after_write_advance {d k : RegNo} {q r : Quad} (h : if k = d then q = r else s.readV k = some q) :
    (s.writeV d r).advance.readV k = some q := by
  rw [State.readV_advance, State.readV_writeV]
  split_ifs at h with hk
  · rw [if_pos hk.symm, h]
  · rwa [if_neg (Ne.symm hk)]

/-- An instruction that completes below the top of the address space adds 4 to `pc` as a number (R62). -/
theorem pc_toNat_of_exec_next (h : exec i s = .next t) (htop : s.pc.toNat + 4 < 2 ^ 64) :
    t.pc.toNat = s.pc.toNat + 4 := by
  obtain ⟨k, -, q, rfl⟩ := exec_next_eq_writeV_advance h
  exact advance_pc_toNat (s := s.writeV k q) htop

/-! ### Premise 2 of the launch (R86) -/

/-- Where FPCheck reads `rest` alone, a state with the same `rest` and parameters as an enabled one is enabled. -/
theorem enabled_of_rest_params_eq (h : FPCheckReadsRestOnly s.params.fpCheck) (he : Enabled s) (hrest : t.rest = s.rest)
    (hparams : t.params = s.params) : Enabled t := by
  obtain ⟨hfeature, hok⟩ := he
  have hsame : t.fpOutcome = s.fpOutcome := h t s (congrArg Params.fpCheck hparams) rfl hrest
  exact ⟨hparams ▸ hfeature, hsame.trans hok⟩

/-- Where FPCheck reads `rest` alone, completed steps lead from an enabled state to an enabled one. -/
theorem enabled_of_run_next (h : FPCheckReadsRestOnly s.params.fpCheck) (he : Enabled s)
    (hrun : Host.Core.run Sys2Proof.core j s = .next t) : Enabled t := by
  obtain ⟨-, -, -, -, -, hrest, hparams⟩ := exists_text_of_run_next hrun
  exact enabled_of_rest_params_eq h he hrest hparams

/-! ### The distance to the end address (R62, R87) -/

/-- Of the states that completed steps lead to, the one after `l` steps is at the end address `pc + 4 l`, and no other is. -/
theorem pc_eq_endAddr_iff (hstop : stop.addr.toNat = s.pc.toNat + 4 * l)
    (hrun : Host.Core.run Sys2Proof.core j s = .next u) : u.pc = stop.addr ↔ j = l := by
  obtain ⟨-, -, -, -, hpc, -⟩ := exists_text_of_run_next hrun
  rw [← BitVec.toNat_inj, hpc, hstop]
  omega

/-- Fewer than `l` completed steps do not lead to the end address `pc + 4 l`. -/
theorem notYetAt_of_endAddr (hstop : stop.addr.toNat = s.pc.toNat + 4 * l) : NotYetAt stop l s :=
  fun _ hi _ hrun => mt (pc_eq_endAddr_iff hstop hrun).1 hi.ne

/-- A run to the end address `pc + 4 l` is complete in the state that `l` completed steps lead to exactly when it is allowed `l`
steps. -/
theorem runTo_complete_iff_of_run_next (hstop : stop.addr.toNat = s.pc.toNat + 4 * l)
    (hrun : Host.Core.run Sys2Proof.core l s = .next t) (k : Nat) : runTo stop k s = .complete t ↔ l ≤ k := by
  have hat : t.pc = stop.addr := (pc_eq_endAddr_iff hstop hrun).2 rfl
  rw [runTo_eq_iff]
  constructor
  · rintro ⟨j, ⟨hrun', -⟩, hj, -⟩
    exact (pc_eq_endAddr_iff hstop hrun').1 hat ▸ hj
  · exact fun hl => ⟨l, ⟨hrun, notYetAt_of_endAddr hstop⟩, hl, hat⟩

/-! ### The run of a launched text (R86, R87) -/

/-- A launched text completes as steps, one for each instruction, with their effects one after the other. (Of the state after the
last instruction no launch premise is known, hence the hypothesis is of a text that is not empty; log 25.) -/
theorem exists_run_of_launchReady (h : text ≠ [] → LaunchReady s text) :
    ∃ t, Host.Core.run Sys2Proof.core text.length s = .next t ∧ t.v = text.foldl regsAfter s.v := by
  induction text generalizing s with
  | nil => exact ⟨s, rfl, rfl⟩
  | cons ins text ih =>
    obtain ⟨t, hexec, hstep, hready⟩ := launchReady_cons (h (List.cons_ne_nil ins text))
    obtain ⟨u, hrun, hv⟩ := ih hready
    refine ⟨u, (core_run_next text.length hstep).trans hrun, ?_⟩
    rw [hv, exec_next_v hexec, List.foldl_cons]

end Sys2Proof.Proofs
end

section
/-! SUPPORT. Proofs of the statements of `70_reset_and_hazards.md`. -/

namespace Sys2Proof.Proofs

open Sys2Proof.Machine Sys2Proof.Safety

/-- Settles O36: the state the first instruction leaves is enabled and gives each register the second reads its new or its old
value; `pc` advances twice. -/
theorem nextInstructionSeesTheNewValue : Obligations.NextInstructionSeesTheNewValue := by
  intro d n m d2 n2 m2 i i2 s vm vn vd vm2 vn2 vd2 he hok htop hm hn hd hm2 hn2 hd2
  have hfirst := exec_sm3tt1b_eq_next (i := i) he hm hn hd
  have he' : Enabled (s.writeV d (sm3tt1bResult vd vn vm i)).advance := ⟨he.1, hok _ hfirst⟩
  have hsecond := exec_sm3tt1b_eq_next (i := i2) he' (readV_after_write_advance hm2) (readV_after_write_advance hn2)
    (readV_after_write_advance hd2)
  have hpc := pc_toNat_of_exec_next hfirst (by omega)
  have hpc' := pc_toNat_of_exec_next hsecond (by omega)
  exact ⟨_, _, hfirst, hsecond, by simp, by omega⟩

/-- Settles O37: a completed step keeps `rest` and the parameters (O5), and the check reads nothing else. -/
theorem enabledStaysEnabled : Obligations.EnabledStaysEnabled := by
  intro s t hcheck he hstep
  obtain ⟨-, hparams, -, -, -, -, hrest⟩ := stepKeepsRestAndParameters s t hstep
  exact enabled_of_rest_params_eq hcheck he hrest hparams

/-- Settles O39: the text's instructions complete one after the other, and only the state after the last is at the end
address. -/
theorem launchedTextCompletesInAsManySteps : Obligations.LaunchedTextCompletesInAsManySteps := by
  intro s text stop hready hstop
  obtain ⟨t, hrun, hv⟩ := exists_run_of_launchReady fun _ => hready
  obtain ⟨-, -, -, -, -, hrest, hparams⟩ := exists_text_of_run_next hrun
  exact ⟨t, hrun, runTo_complete_iff_of_run_next hstop hrun, (pc_eq_endAddr_iff hstop hrun).2 rfl, hv, hrest, hparams⟩

/-- Settles O41: every state the run passes, and the one it leads to, is enabled as the launch state is. -/
theorem restOnlyCheckStaysOkAlongTheRun : Obligations.RestOnlyCheckStaysOkAlongTheRun :=
  fun _ _ hcheck he => ⟨⟨he, fun _ _ _ hrun => (enabled_of_run_next hcheck he hrun).2⟩, fun _ => enabled_of_run_next hcheck he⟩

/-- Settles O42: a run left unfinished has completed `k` steps, and those lead to the end address. -/
theorem everyRunEndsByItsEndAddress : Obligations.EveryRunEndsByItsEndAddress := by
  intro s stop k hstop u hunfinished
  obtain ⟨j, ⟨hrun, -⟩, hj, hne⟩ := runTo_eq_iff.1 hunfinished
  exact hne ((pc_eq_endAddr_iff hstop hrun).2 hj)

/-- Settles O38, from the first test of a run. -/
theorem noStepFromTheEndAddress : Obligations.NoStepFromTheEndAddress :=
  fun _ _ k => runTo_of_pc_eq k

end Sys2Proof.Proofs
end

section
/-! SUPPORT. Proofs of the statements of the reset state (`10_state.md` section 10, R34; log 4 to 7, 10). -/

namespace Sys2Proof.Proofs

open Sys2Proof.Machine Sys2Proof.Safety

/-- No register is `unwritten` at reset (log 4, 8). -/
theorem readV_reset (k : RegNo) : State.reset.readV k = some 0 :=
  (State.readV_eq_some _ _ _).2 (Vector.getElem_replicate k.isLt)

theorem pcAligned_reset : State.reset.pcAligned = true := rfl

/-- At reset the fetch passes the checks of `pc` and finds no text (checks 1 to 3 of R74; log 10). -/
theorem step_reset : step State.reset = .refused .noInstructionMemory := by
  obtain ⟨-, hmissing⟩ := fetchReadsFourBytesLittleEndian State.reset (pcAligned_iff_mod.1 pcAligned_reset) (by decide)
  exact hmissing ⟨0, by decide, Memory.read_nil _⟩

/-- Settles O1: the refused step and the registers by the lemmas above, the other values as `State.reset` gives them. -/
theorem resetLeavesTheChosenValues : Obligations.ResetLeavesTheChosenValues := by
  have hx (k : Fin 31) : State.reset.rest.x[k] = 0 := Vector.getElem_replicate k.isLt
  have henabled : Enabled State.reset := ⟨rfl, rfl⟩
  exact ⟨readV_reset, rfl, hx, rfl, rfl, rfl, henabled, Memory.read_nil, rfl, step_reset⟩

/-- Settles O2: the reset memory is empty, `pc` is 0 and every register holds 0. -/
theorem resetMeetsInvariant : Obligations.ResetMeetsInvariant := by
  have hvalued (k : RegNo) : (State.reset.readV k).isSome = true := by rw [readV_reset, Option.isSome_some]
  exact ⟨Memory.wf_reset, pcAligned_reset, hvalued⟩

end Sys2Proof.Proofs
end
